-- ==== Sys2Proof/Word.lean ====
section
/-! DEFINITION. The word on the ports and its two integer readings (00_scope.md R7, R9). -/

namespace Sys2Proof

/-- A FixedScalar raw value: the word on the ports `a`, `b` and `y` (R7 `W` = 64, R17). -/
abbrev Word := BitVec 64

/-- One byte of the wire form outside the block (R27). -/
abbrev Byte := BitVec 8

/-- The unsigned reading u64(v), an integer in [0, 2^64) (R9). -/
def u64 (v : Word) : Int := (v.toNat : Int)

/-- The two's-complement reading s64(v) = u64(v) − 2^64 · v[63] (R9). -/
def s64 (v : Word) : Int := u64 v - 2 ^ 64 * (if v[63] then 1 else 0)

/-- The word whose unsigned reading is n modulo 2^64 (R9). -/
def enc64 (n : Int) : Word := BitVec.ofInt 64 n

end Sys2Proof
end

