-- ==== Sys2Proof/Syntax.lean ====
section
/-! DEFINITION. The four commands, the transaction on the ports, and the host's lines and pseudo-instructions
(10_state.md R13; 30_encoding.md R35 to R42). -/

namespace Sys2Proof

/-- The four commands of the opcode table (R37). A command has no operand field: its operands are the whole words on the
ports `a` and `b` (R36). -/
inductive Instr where
  /-- `00`: y = a + b, wrapping (R49). -/
  | add
  /-- `01`: y = a − b, wrapping (R50). -/
  | sub
  /-- `10`: y = a + b, saturating (R51). -/
  | addsat
  /-- `11`: y = a − b, saturating (R52). -/
  | subsat
  deriving DecidableEq, Repr

/-- What one transaction presents on the input ports, together (R13). -/
structure Transaction where
  op : BitVec 2
  a  : Word
  b  : Word
  deriving DecidableEq, Repr

/-- The constants an operand may name (R19, R21). `Epsilon`, `Pi` and `PiOver2` have no value in this spec (R21, I8). -/
inductive Constant where
  | zero
  | one
  | half
  | maxValue
  | minValue
  | positiveInfinity
  | negativeInfinity
  | nan
  deriving DecidableEq, Repr

/-- The three operand forms of a host's line (R41). -/
inductive Source where
  /-- A 64-bit raw literal. -/
  | lit (v : Word)
  /-- A named constant. -/
  | const (c : Constant)
  /-- The name `tK` of an earlier result. -/
  | result (k : Nat)
  deriving DecidableEq, Repr

/-- One transaction as the host queues it: the command's two bits and where its operands come from (R40, R41). -/
structure Line where
  op : BitVec 2
  a  : Source
  b  : Source
  deriving DecidableEq, Repr

/-- What may stand right of the `=` of a host's line: a command with two operands (R41) or a pseudo-instruction (R42). -/
inductive Stmt where
  | core (i : Instr) (a b : Source)
  | neg (b : Source)
  | negsat (b : Source)
  | mov (a : Source)
  | dbl (a : Source)
  | dblsat (a : Source)
  deriving DecidableEq, Repr

end Sys2Proof
end

