-- ==== Sys2Proof/Decode.lean ====
section
/-! DEFINITION. The decoder, the encoder, the TX130 record and the expansion of the pseudo-instructions (30_encoding.md). -/

namespace Sys2Proof

/-- The decoder of R39: `op[0]` selects subtraction and `op[1]` the saturating variant; no command is illegal (R38). -/
def decode (op : BitVec 2) : Instr :=
  match op[1], op[0] with
  | false, false => .add
  | false, true => .sub
  | true, false => .addsat
  | true, true => .subsat

/-- The encoder, written from the opcode map of R37. -/
def encode : Instr → BitVec 2
  | .add => 0b00#2
  | .sub => 0b01#2
  | .addsat => 0b10#2
  | .subsat => 0b11#2

/-- The operation subtracts (SUB, SUBSAT; R37). -/
def Instr.isSub : Instr → Bool
  | .add => false
  | .sub => true
  | .addsat => false
  | .subsat => true

/-- The operation is of the saturating (checked) variant (ADDSAT, SUBSAT; R37). -/
def Instr.isSat : Instr → Bool
  | .add => false
  | .sub => false
  | .addsat => true
  | .subsat => true

/-- Why a number is not the word of a command. -/
inductive DecodeReject where
  /-- The number does not fit the 2 bits of the `op` port (R35). Safe: the word is refused. -/
  | widerThanOpPort (w : Nat)
  deriving DecidableEq, Repr

/-- The command whose word is the number `w` (DESIGN CHOICE, log entry 10: bits above bit 1 must be 0). -/
def decodeNat (w : Nat) : Except DecodeReject Instr :=
  if w < 4 then .ok (decode (BitVec.ofNat 2 w)) else .error (.widerThanOpPort w)

/-- The command the decoder reads from an opcode-table word of `nbits` bits (log entry 10). -/
def decodeTableWord (nbits w : Nat) : Option Instr :=
  if w < 2 ^ nbits then (decodeNat w).toOption else none

/-- The 130-bit record TX130 = {op, b, a}: bits 129:128 hold `op`, 127:64 hold `b`, 63:0 hold `a` (R40). -/
def Transaction.toRecord (t : Transaction) : BitVec 130 :=
  (t.op.setWidth 130 <<< 128) ||| (t.b.setWidth 130 <<< 64) ||| t.a.setWidth 130

/-- The transaction a TX130 record stands for (R40). -/
def Transaction.ofRecord (r : BitVec 130) : Transaction :=
  { op := r.extractLsb' 128 2, a := r.extractLsb' 0 64, b := r.extractLsb' 64 64 }

/-- The line that presents a transaction whose operands are already words. -/
def Line.ofTransaction (t : Transaction) : Line := { op := t.op, a := .lit t.a, b := .lit t.b }

/-- The line a statement stands for: a command as it is, a pseudo-instruction by its expansion (R42). -/
def Stmt.expand : Stmt → Line
  | .core i a b => { op := encode i, a := a, b := b }
  | .neg b => { op := encode .sub, a := .const .zero, b := b }
  | .negsat b => { op := encode .subsat, a := .const .zero, b := b }
  | .mov a => { op := encode .add, a := a, b := .const .zero }
  | .dbl a => { op := encode .add, a := a, b := a }
  | .dblsat a => { op := encode .addsat, a := a, b := a }

end Sys2Proof
end

