-- ==== Sys2Proof/Config.lean ====
section
/-! DEFINITION. What an implementation fixes: the parameters of 00_scope.md R7. The values of `SAT_MAX` and `SAT_MIN`
stand in ONE definition, `Machine.config` (Machine/Operands.lean), where a correction may change them (R8). -/

namespace Sys2Proof

/-- The configuration constants of the saturating variant (R7, R8; 93_implementation_defined.md I2). -/
structure Config where
  satMax : Word
  satMin : Word
  deriving DecidableEq, Repr

/-- `F`, the number of fractional bits of Q31.32 (R7). -/
def Config.fracBits : Nat := 32

/-- `LATENCY`: cycles from presenting a transaction to its result being valid. OPEN (R7, R79, D15): no body, so nothing can
be proved of its value; only `Machine.State.readOutputs` reads it, and no step does. -/
opaque Config.latency : Nat

/-- The two byte orders that `WIRE_BYTE_ORDER` ranges over (R7). -/
inductive ByteOrder where
  | little
  | big
  deriving DecidableEq, Repr, Inhabited

/-- `WIRE_BYTE_ORDER`: the order on a byte-serial link outside the block. OPEN (R7, R27, D9): no body. -/
opaque Config.wireByteOrder : ByteOrder

end Sys2Proof
end

