-- ==== Sys2Proof/Machine/Arith.lean ====
section
/-! DEFINITION. Exact and wrapped results (40_add_sub.md R43, R44) and the fixed-point reading of a word (00_scope.md R11). -/

namespace Sys2Proof.Machine

/-- The exact sum s64(a) + s64(b) (R43). -/
def exactSum (a b : Word) : Int := s64 a + s64 b

/-- The exact difference s64(a) − s64(b) (R43). -/
def exactDiff (a b : Word) : Int := s64 a - s64 b

/-- The wrapped sum r_add (R44). -/
def rAdd (a b : Word) : Word := enc64 (exactSum a b)

/-- The wrapped difference r_sub (R44). -/
def rSub (a b : Word) : Word := enc64 (exactDiff a b)

/-- The semantic value s64(v) / 2^32 of a raw word (R11). -/
def value (v : Word) : Rat := (s64 v : Rat) / 2 ^ Config.fracBits

/-- The integer part, v[63:32] read signed (R11). -/
def intPart (v : Word) : Int := (v.extractLsb' 32 32).toInt

/-- The fractional part, v[31:0] read unsigned (R11). -/
def fracPart (v : Word) : Int := ((v.extractLsb' 0 32).toNat : Int)

end Sys2Proof.Machine
end

