-- ==== Sys2Proof/Machine/Flags.lean ====
section
/-! DEFINITION. The one condition the block computes: overflow (40_add_sub.md R45 to R47), and the value that replaces an
overflowing result (R48). -/

namespace Sys2Proof.Machine

/-- The exact result lies outside the signed 64-bit range (R45). -/
def overflows (exact : Int) : Bool := decide (exact < -2 ^ 63 ∨ 2 ^ 63 - 1 < exact)

/-- The addition overflow test: the operands share a sign and the result's sign differs (R46). -/
def ovfAdd (a b : Word) : Bool := (a[63] == b[63]) && ((rAdd a b)[63] != a[63])

/-- The subtraction overflow test: the operands differ in sign and the result's sign differs from the minuend's (R47; the
spec's choice, 90_conflicts.md C1, log entry 8). -/
def ovfSub (a b : Word) : Bool := (a[63] != b[63]) && ((rSub a b)[63] != a[63])

/-- The saturation value: the sign of `a` chooses the direction (R48). -/
def satValue (cfg : Config) (a : Word) : Word := if a[63] then cfg.satMin else cfg.satMax

end Sys2Proof.Machine
end

