-- ==== Sys2Proof/Machine/State.lean ====
section
/-! DEFINITION. The state: the ports of the block (10_state.md R13), and the queue and results of the host that drives it. -/

namespace Sys2Proof.Machine

/-- The values on the output ports of one transaction (R13). -/
structure Output where
  /-- Port `y`. -/
  y   : Word
  /-- Port `sat`, one bit: true for 1 (R22). -/
  sat : Bool
  deriving DecidableEq, Repr

/-- Why the machine stops with a fault. The block raises none (60_exceptions.md R60): each is the model's stop where the
spec gives no value. -/
inductive Fault where
  /-- Raised by `step` when nothing is queued and no unanswered transaction stands on the ports, and by a command run with
  nothing on the input ports (R25, R77; log entry 4). Safe: the model stops. -/
  | noTransaction
  /-- Raised by a read of `y` or `sat` before any transaction has answered (R25, R75, I5). Safe: the model gives no value. -/
  | outputNoValue
  /-- Raised by a read of `y` or `sat` before `LATENCY` has passed (R79, I6). Safe: the model gives no value. -/
  | resultNotValid
  deriving DecidableEq, Repr

/-- Why the machine refuses a step. -/
inductive Refusal where
  /-- An instruction of the table without a meaning; no arm of `exec` raises it now. Safe: the model stops. -/
  | notModelled (mnemonic : String)
  /-- Raised by `step` when the queued line names the result `tK` and no such earlier result exists (R41: K < N; log entry 5).
  Safe: the model stops. -/
  | unresolvedName (k : Nat)
  deriving DecidableEq, Repr

/-- The machine. `inputs` and `outputs` are the block's ports; the block itself holds nothing from one transaction to the
next (R6, R14 to R16, R23). `pending` and `results` are the host's (R15, R30, R40, R41; DESIGN CHOICE, log entry 2). -/
structure State where
  /-- What the host holds on `op`, `a` and `b`, if it presents a transaction. -/
  inputs  : Option Transaction
  /-- What stands on `y` and `sat`, if they carry a value (R25). -/
  outputs : Option Output
  /-- The host's transactions still to present, the next one first. -/
  pending : List Line
  /-- The results the host has read, `t0` first. -/
  results : List Output
  deriving DecidableEq, Repr

/-- Right after reset: nothing presented, no value on the outputs (R25, R75), and a host that has queued and read nothing
(DESIGN CHOICE, log entry 2). -/
def State.reset : State :=
  { inputs := none, outputs := none, pending := [], results := [] }

end Sys2Proof.Machine
end

