-- ==== Sys2Proof/Machine/Operands.lean ====
section
/-! DEFINITION. The named constants (10_state.md R19, R21), the configuration's values (00_scope.md R7), and the operand
forms of a host's line (30_encoding.md R41). -/

namespace Sys2Proof

/-- The configuration of this block: `SAT_MAX` and `SAT_MIN` at the defaults of R7. THE ONE PLACE that gives the two their
values (R8; UNVERIFIED, log entry 9): the saturating commands and the operands `MaxValue` and `MinValue` read them here. -/
def Machine.config : Config := { satMax := 0x7FFFFFFFFFFFFFFE#64, satMin := 0x8000000000000002#64 }

/-- The raw value of a named constant: `MaxValue` = `SAT_MAX` and `MinValue` = `SAT_MIN` (R19), so a correction of the two
reaches them from the configuration (R8, D7); the other sentinels from raw max = 2^63 − 1 and raw min = −2^63 (R19); `One` and
`Half` from Q31.32 (R21). -/
def Constant.word : Constant → Word
  | .zero => 0x0000000000000000#64
  | .one => 0x0000000100000000#64
  | .half => 0x0000000080000000#64
  | .maxValue => Machine.config.satMax
  | .minValue => Machine.config.satMin
  | .positiveInfinity => 0x7FFFFFFFFFFFFFFF#64
  | .negativeInfinity => 0x8000000000000001#64
  | .nan => 0x8000000000000000#64

/-- The result `tK.y` among the results the host has read (R41). -/
def Machine.resultY (results : List Machine.Output) (k : Nat) : Option Word := (results[k]?).map Machine.Output.y

/-- The status `tK.sat` among the results the host has read (R41). -/
def Machine.resultSat (results : List Machine.Output) (k : Nat) : Option Bool := (results[k]?).map Machine.Output.sat

/-- The word of an operand; the host carries an earlier `y` unchanged (R30, R41). The error is the index of a result that
does not exist (log entry 5). -/
def Source.resolve (results : List Machine.Output) : Source → Except Nat Word
  | .lit v => .ok v
  | .const c => .ok c.word
  | .result k =>
    match Machine.resultY results k with
    | some v => .ok v
    | none => .error k

/-- The transaction a line stands for, its operands resolved, `a` first (R41). -/
def Line.resolve (results : List Machine.Output) (l : Line) : Except Nat Transaction :=
  match l.a.resolve results with
  | .error k => .error k
  | .ok a =>
    match l.b.resolve results with
    | .error k => .error k
    | .ok b => .ok { op := l.op, a := a, b := b }

end Sys2Proof
end

