-- ==== Sys2Proof/Machine/Ops.lean ====
section
/-! DEFINITION. The named operations on the ports. The block has no memory, register or trap (20_memory.md R26; 10_state.md
R14; 60_exceptions.md R65), so there is no memory operation, no exception entry and no return from one. -/

namespace Sys2Proof.Machine

/-- The host presents a transaction on the input ports (R13). The outputs carry no value until it has answered (R79, I6;
log entry 6). -/
def State.present (t : Transaction) (s : State) : State := { s with inputs := some t, outputs := none }

/-- `y <- o.y` and `sat <- o.sat` (00_scope.md R10). -/
def State.drive (o : Output) (s : State) : State := { s with outputs := some o }

/-- What a saturating command answers: the saturation value with sat = 1 on overflow, else the wrapped result with sat = 0
(R48, R51, R52). -/
def saturate (cfg : Config) (ovf : Bool) (a r : Word) : Output :=
  if ovf then { y := satValue cfg a, sat := true } else { y := r, sat := false }

/-- What a wrapping command answers: the wrapped result, silently (R22, R49, R50). -/
def wrap (r : Word) : Output := { y := r, sat := false }

/-- The shape of every command: read the whole words on `a` and `b`, drive `y` and `sat`, change nothing else (R13, R29, R36).
With nothing presented there is nothing to read (R25; log entry 4). -/
def transact (f : Word → Word → Output) (s : State) : Host.Outcome State Fault Refusal :=
  match s.inputs with
  | none => .fault .noTransaction
  | some t => .next (s.drive (f t.a t.b))

/-- The outputs once they have settled: their value, or a fault where no transaction has answered (R25, I5). -/
def State.settledOutputs (s : State) : Except Fault Output :=
  match s.outputs with
  | none => .error .outputNoValue
  | some o => .ok o

/-- The host reads `y` and `sat`, `elapsed` cycles after it presented the transaction, of a block that takes `latency` cycles:
no value before that (R79, I6; log entry 6). A read changes nothing (R29), so it answers no state. -/
def State.readAt (latency elapsed : Nat) (s : State) : Except Fault Output :=
  match s.settledOutputs with
  | .error e => .error e
  | .ok o => if elapsed < latency then .error .resultNotValid else .ok o

/-- The host's read of this block, whose `LATENCY` is OPEN (R7, D15). -/
def State.readOutputs (elapsed : Nat) (s : State) : Except Fault Output := s.readAt Config.latency elapsed

/-- The host reads the settled outputs and keeps them as its next result (R41, R77). -/
def State.recordResult (s : State) : Host.Outcome State Fault Refusal :=
  match s.settledOutputs with
  | .error e => .fault e
  | .ok o => .next { s with results := s.results ++ [o] }

/-- Go on from a next state; a fault or a refusal stays. -/
def andThen (r : Host.Outcome State Fault Refusal) (k : State → Host.Outcome State Fault Refusal) :
    Host.Outcome State Fault Refusal :=
  match r with
  | .next s => k s
  | .fault e => .fault e
  | .refused e => .refused e

/-- The host queues lines behind those it has queued (R40, R41). -/
def State.enqueue (ls : List Line) (s : State) : State := { s with pending := s.pending ++ ls }

/-- The host queues TX130 records (R40). -/
def State.enqueueRecords (rs : List (BitVec 130)) (s : State) : State :=
  s.enqueue (rs.map fun r => Line.ofTransaction (Transaction.ofRecord r))

end Sys2Proof.Machine
end

