-- ==== Sys2Proof/Machine/AddSub.lean ====
section
/-! DEFINITION. The meanings of the four commands (40_add_sub.md R49 to R52) and the block as one function (R59). -/

namespace Sys2Proof.Machine

/-- ADD's outputs (R49). -/
def outAdd (a b : Word) : Output := wrap (rAdd a b)

/-- SUB's outputs (R50). -/
def outSub (a b : Word) : Output := wrap (rSub a b)

/-- ADDSAT's outputs (R51). -/
def outAddsat (cfg : Config) (a b : Word) : Output := saturate cfg (ovfAdd a b) a (rAdd a b)

/-- SUBSAT's outputs (R52). -/
def outSubsat (cfg : Config) (a b : Word) : Output := saturate cfg (ovfSub a b) a (rSub a b)

/-- ADD: wrapping addition (R49). -/
def execAdd (s : State) : Host.Outcome State Fault Refusal := transact outAdd s

/-- SUB: wrapping subtraction (R50). -/
def execSub (s : State) : Host.Outcome State Fault Refusal := transact outSub s

/-- ADDSAT: saturating addition (R51). -/
def execAddsat (s : State) : Host.Outcome State Fault Refusal := transact (outAddsat config) s

/-- SUBSAT: saturating subtraction (R52). -/
def execSubsat (s : State) : Host.Outcome State Fault Refusal := transact (outSubsat config) s

/-- The outputs of a command as a function of its operands, under a configuration (R59). -/
def respondWith (cfg : Config) (i : Instr) (a b : Word) : Output :=
  match i with
  | .add => outAdd a b
  | .sub => outSub a b
  | .addsat => outAddsat cfg a b
  | .subsat => outSubsat cfg a b

/-- R59's total function step(op, a, b) = (y, sat), the command already decoded. -/
def respond (i : Instr) (a b : Word) : Output := respondWith config i a b

/-- The outputs a transaction on the ports has (R13, R59). -/
def answer (t : Transaction) : Output := respond (decode t.op) t.a t.b

end Sys2Proof.Machine
end

