-- ==== Sys2Proof/Machine/Sequence.lean ====
section
/-! DEFINITION. How the next command reaches the ports: the host's queue stands where another machine fetches (10_state.md
R15; 20_memory.md R30, R33). -/

namespace Sys2Proof.Machine

/-- A transaction stands on the input ports and has not been answered yet. -/
def State.unanswered (s : State) : Bool := s.inputs.isSome && s.outputs.isNone

/-- The host takes its next line, resolves the operands and presents the transaction (R13, R30, R41). With an empty queue the
transaction that already stands unanswered on the ports stays there; if there is none, nothing is left to run (a fault, log
entry 4). With a line queued, a transaction that still stands unanswered on the ports is overwritten by the line's and gets no
result (DESIGN CHOICE, log entry 13: the spec is silent on a host that presents again before it reads). A name without a
result is a refusal (log entry 5). -/
def presentNext (s : State) : Host.Outcome State Fault Refusal :=
  match s.pending with
  | [] => if s.unanswered then .next s else .fault .noTransaction
  | l :: rest =>
    match l.resolve s.results with
    | .error k => .refused (.unresolvedName k)
    | .ok t => .next (State.present t { s with pending := rest })

/-- The two bits on the `op` port (R13); with nothing presented there are none to read (R25). -/
def presentedOp (s : State) : Option (BitVec 2) := s.inputs.map Transaction.op

/-- The line that presents an opcode-table word with both operand words zero (log entry 10). -/
def lineOfTableWord (nbits w : Nat) : Option Line :=
  (decodeTableWord nbits w).map fun i =>
    Line.ofTransaction { op := encode i, a := 0#64, b := 0#64 }

/-- The queue with an opcode-table word as its next line, in place of the line there (log entry 10). -/
def queueWithWord (nbits w : Nat) (queue : List Line) : List Line :=
  match lineOfTableWord nbits w with
  | some l => l :: queue.tail
  | none => queue

end Sys2Proof.Machine
end

