-- ==== Sys2Proof/Machine/Step.lean ====
section
/-! DEFINITION. One step: one whole transaction (00_scope.md R6; log entry 3). -/

namespace Sys2Proof.Machine

/-- Run the command on the `op` port. -/
def runPresented (s : State) : Host.Outcome State Fault Refusal :=
  match presentedOp s with
  | none => .fault .noTransaction
  | some op => exec (decode op) s

/-- The host presents its next transaction, the block answers it, and the host reads and keeps `y` and `sat`. -/
def step (s : State) : Host.Outcome State Fault Refusal :=
  andThen (presentNext s) fun s => andThen (runPresented s) State.recordResult

/-- `s` with an opcode-table word as the host's next transaction, operand words zero: the very next step runs it (log entries
2 and 10). -/
def State.withFetchWord (s : State) (nbits w : Nat) : State :=
  { s with pending := queueWithWord nbits w s.pending }

end Sys2Proof.Machine
end

