-- ==== Sys2Proof/WellFormed.lean ====
section
/-! DEFINITION. Which host lines are well formed. Of a command there is nothing to check: all four are legal (30_encoding.md
R38) and every operand word is legal (10_state.md R18). A line may name earlier results only (R41: K < N). -/

namespace Sys2Proof

/-- The operand of line `n` names an earlier result, if it names one (R41). -/
def Source.wf (n : Nat) : Source → Bool
  | .lit _ => true
  | .const _ => true
  | .result k => decide (k < n)

/-- Both operands of line `n` are well formed. -/
def Line.wf (n : Nat) (l : Line) : Bool := l.a.wf n && l.b.wf n

/-- The lines are well formed as the lines `n`, `n + 1`, … of a program (R41). -/
def Program.wf (n : Nat) : List Line → Bool
  | [] => true
  | l :: ls => l.wf n && Program.wf (n + 1) ls

end Sys2Proof
end

