-- ==== Sys2Proof/Machine/Asm.lean ====
section
/-! DEFINITION. The text form of the host's transactions (30_encoding.md R41, R42): notation of the host, read into the lines
it queues. The lexical choices are log entry 12. -/

namespace Sys2Proof.Asm

/-- A token of a line. -/
inductive Token where
  | word (cs : List Char)
  | comma
  | equals
  deriving DecidableEq, Repr

/-- The word read so far, if there is one, before the tokens that follow it. -/
def flush (acc : List Char) (rest : List Token) : List Token :=
  match acc with
  | [] => rest
  | _ => .word acc.reverse :: rest

/-- Cut a line into tokens; `acc` holds the word being read, its last character first. -/
def tokensFrom (acc : List Char) : List Char → List Token
  | [] => flush acc []
  | c :: cs =>
    if c = ',' then flush acc (.comma :: tokensFrom [] cs)
    else if c = '=' then flush acc (.equals :: tokensFrom [] cs)
    else if c = ' ' ∨ c = '\t' then flush acc (tokensFrom [] cs)
    else tokensFrom (c :: acc) cs

/-- The tokens of a line. -/
def tokens (cs : List Char) : List Token := tokensFrom [] cs

/-- The value of a character as a digit of a base up to 16. -/
def digit (base : Nat) (c : Char) : Option Nat :=
  let n := c.toNat
  let d := if 48 ≤ n ∧ n ≤ 57 then n - 48
    else if 65 ≤ n ∧ n ≤ 70 then n - 55
    else if 97 ≤ n ∧ n ≤ 102 then n - 87
    else 16
  if d < base then some d else none

/-- The number that digits stand for, most significant first, after the number `n`. -/
def number (base n : Nat) : List Char → Option Nat
  | [] => some n
  | c :: cs =>
    match digit base c with
    | some d => number base (n * base + d) cs
    | none => none

/-- A decimal index: one digit or more (R41). -/
def index : List Char → Option Nat
  | [] => none
  | cs => number 10 0 cs

/-- The digits of a hexadecimal literal after `0x`: `groups` groups of four joined by `_` (R9). -/
def hexGroups : Nat → List Char → Option (List Char)
  | 1, [p, q, r, s] => some [p, q, r, s]
  | n + 2, p :: q :: r :: s :: '_' :: rest => (hexGroups (n + 1) rest).map fun ds => p :: q :: r :: s :: ds
  | _, _ => none

/-- A 64-bit hexadecimal raw literal such as 0x7FFF_FFFF_FFFF_FFFE (R9, R41). -/
def hexLiteral : List Char → Option Word
  | '0' :: 'x' :: cs =>
    match hexGroups 4 cs with
    | some ds => (number 16 0 ds).map (BitVec.ofNat 64)
    | none => none
  | _ => none

/-- A named constant (R19, R21, R41). -/
def constant (cs : List Char) : Option Constant :=
  if cs = ['Z', 'e', 'r', 'o'] then some .zero
  else if cs = ['O', 'n', 'e'] then some .one
  else if cs = ['H', 'a', 'l', 'f'] then some .half
  else if cs = ['M', 'a', 'x', 'V', 'a', 'l', 'u', 'e'] then some .maxValue
  else if cs = ['M', 'i', 'n', 'V', 'a', 'l', 'u', 'e'] then some .minValue
  else if cs = ['P', 'o', 's', 'i', 't', 'i', 'v', 'e', 'I', 'n', 'f', 'i', 'n', 'i', 't', 'y'] then
    some .positiveInfinity
  else if cs = ['N', 'e', 'g', 'a', 't', 'i', 'v', 'e', 'I', 'n', 'f', 'i', 'n', 'i', 't', 'y'] then
    some .negativeInfinity
  else if cs = ['N', 'a', 'N'] then some .nan
  else none

/-- The name `tK` of a result. -/
def resultName : List Char → Option Nat
  | 't' :: cs => index cs
  | _ => none

/-- An operand: a literal, a constant or the name of a result (R41). -/
def parseSource (cs : List Char) : Option Source :=
  match hexLiteral cs with
  | some v => some (.lit v)
  | none =>
    match constant cs with
    | some c => some (.const c)
    | none => (resultName cs).map Source.result

/-- The lower-case form of a character; mnemonics are case-insensitive (R41). -/
def lower (c : Char) : Char :=
  if 65 ≤ c.toNat ∧ c.toNat ≤ 90 then Char.ofNat (c.toNat + 32) else c

/-- The command a mnemonic names (R41). -/
def mnemonic (cs : List Char) : Option Instr :=
  let m := cs.map lower
  if m = ['a', 'd', 'd'] then some .add
  else if m = ['s', 'u', 'b'] then some .sub
  else if m = ['a', 'd', 'd', 's', 'a', 't'] then some .addsat
  else if m = ['s', 'u', 'b', 's', 'a', 't'] then some .subsat
  else none

/-- The pseudo-instruction a mnemonic names, on its operand (R42). -/
def pseudo (cs : List Char) (x : Source) : Option Stmt :=
  let m := cs.map lower
  if m = ['n', 'e', 'g'] then some (.neg x)
  else if m = ['n', 'e', 'g', 's', 'a', 't'] then some (.negsat x)
  else if m = ['m', 'o', 'v'] then some (.mov x)
  else if m = ['d', 'b', 'l'] then some (.dbl x)
  else if m = ['d', 'b', 'l', 's', 'a', 't'] then some (.dblsat x)
  else none

/-- One line `tN = MNEMONIC a, b` (R41) or `tN = PSEUDO x` (R42): its N and its statement. -/
def parseLine (cs : List Char) : Option (Nat × Stmt) :=
  match tokens cs with
  | [.word t, .equals, .word m, .word x, .comma, .word y] =>
    match resultName t, mnemonic m, parseSource x, parseSource y with
    | some n, some i, some a, some b => some (n, .core i a b)
    | _, _, _, _ => none
  | [.word t, .equals, .word m, .word x] =>
    match resultName t, parseSource x with
    | some n, some a => (pseudo m a).map fun p => (n, p)
    | _, _ => none
  | _ => none

/-- The lines `n`, `n + 1`, … of a program, each with its own name. -/
def parseLines (n : Nat) : List (List Char) → Option (List Line)
  | [] => some []
  | cs :: rest =>
    match parseLine cs, parseLines (n + 1) rest with
    | some (k, p), some ls => if k = n then some (p.expand :: ls) else none
    | _, _ => none

/-- A program: lines named t0, t1, … whose operands name earlier results only (R41). -/
def parseProgram (text : List (List Char)) : Option (List Line) :=
  match parseLines 0 text with
  | some ls => if Program.wf 0 ls then some ls else none
  | none => none

end Sys2Proof.Asm
end

