-- ==== Sys2Proof/Machine/Wire.lean ====
section
/-! DEFINITION. A raw value on a byte-serial link outside the block (20_memory.md R27; log entry 7). No rule of the block uses
it, and the order is an argument: `Config.wireByteOrder` is OPEN (D9). -/

namespace Sys2Proof.Wire

/-- The `n` low bytes of `v`, the least significant first. -/
def lowBytes : Nat → Word → List Byte
  | 0, _ => []
  | n + 1, v => v.extractLsb' 0 8 :: lowBytes n (v >>> 8)

/-- The word whose bytes are listed, the least significant first. -/
def ofLowBytes : List Byte → Word
  | [] => 0#64
  | x :: xs => (ofLowBytes xs <<< 8) ||| x.setWidth 64

/-- The eight bytes of a raw value in a byte order (PRESUMED: `little` sends bits 7:0 first, `big` bits 63:56). -/
def toBytes (order : ByteOrder) (v : Word) : List Byte :=
  match order with
  | .little => lowBytes 8 v
  | .big => (lowBytes 8 v).reverse

/-- The raw value that eight bytes stand for; another number of bytes is no raw value. -/
def ofBytes (order : ByteOrder) (bs : List Byte) : Option Word :=
  if bs.length = 8 then
    match order with
    | .little => some (ofLowBytes bs)
    | .big => some (ofLowBytes bs.reverse)
  else none

end Sys2Proof.Wire
end

