-- ==== Sys2Proof/Safety.lean ====
section
/-! DEFINITION. What a good state is, and the terms the statements use. -/

namespace Sys2Proof.Machine

/-- The outputs carry a value only as the function of what is on the input ports (10_state.md R13, R23, R25). -/
abbrev OutputsCoherent (s : State) : Prop := s.outputs = none ∨ s.outputs = s.inputs.map answer

/-- Every result the host has read with sat = 1 is a saturation value (R22). -/
abbrev ResultsSaturate (s : State) : Prop :=
  ∀ o ∈ s.results, o.sat = true → o.y = config.satMax ∨ o.y = config.satMin

/-- Every queued line names results that exist by the time it is presented (30_encoding.md R41). -/
abbrev PendingResolves (s : State) : Prop := Program.wf s.results.length s.pending = true

/-- The invariant that every step keeps. -/
abbrev Inv (s : State) : Prop := OutputsCoherent s ∧ ResultsSaturate s ∧ PendingResolves s

/-- The exact result of a command's operation (40_add_sub.md R43). -/
def exactResult (i : Instr) (a b : Word) : Int := if i.isSub then exactDiff a b else exactSum a b

/-- A tree of ADD and SUB transactions: any sequence, grouping and order in which the host feeds results on (R56). -/
inductive WrapTree where
  | word (v : Word)
  | add (l r : WrapTree)
  | sub (l r : WrapTree)
  deriving DecidableEq, Repr

/-- The word the block's transactions compute for the tree, each `y` fed on (R30). -/
def WrapTree.run : WrapTree → Word
  | .word v => v
  | .add l r => (respond .add l.run r.run).y
  | .sub l r => (respond .sub l.run r.run).y

/-- The exact integer result of the tree. -/
def WrapTree.exact : WrapTree → Int
  | .word v => s64 v
  | .add l r => l.exact + r.exact
  | .sub l r => l.exact - r.exact

/-- In every state that presents the operands, the command answers a next state in which only the outputs have changed, to
`o`. -/
def Answers (i : Instr) (a b : Word) (o : Output) : Prop :=
  ∀ (s : State) (op : BitVec 2), s.inputs = some { op := op, a := a, b := b } →
    exec i s = .next { s with outputs := some o }

end Sys2Proof.Machine
end

