-- ==== Sys2Proof/Certificates/Slice0/Obligations.lean ====
section
/-! DEFINITION. The statements about the model, each from the numbered rules of the spec. -/

open Sys2Proof Sys2Proof.Machine

/-- 30_encoding.md R39: the decoder's map, its two bits, and no other outcome (every `op` decodes, R38). -/
def Obligations.DecodesOpcodeMap : Prop :=
  decode 0b00#2 = .add ∧ decode 0b01#2 = .sub ∧ decode 0b10#2 = .addsat ∧ decode 0b11#2 = .subsat ∧
    ∀ op : BitVec 2, (decode op).isSub = op[0] ∧ (decode op).isSat = op[1]

/-- Decoding and encoding agree in both directions, on every command and on every value of `op` (R37, R38). -/
def Obligations.EncodeDecodeRoundTrip : Prop :=
  (∀ i, decode (encode i) = i) ∧ ∀ op, encode (decode op) = op

/-- A table word of `n` bits is a command exactly when it is one of the four values of `op`, and then it is the command with
that encoding. The refusal of wider words is the model's choice (log entry 10). -/
def Obligations.TableWordsAreTheFourCommands : Prop :=
  ∀ (n w : Nat) (i : Instr), decodeTableWord n w = some i ↔ w < 2 ^ n ∧ w < 4 ∧ w = (encode i).toNat

/-- R40: where the TX130 record holds `a`, `b` and `op`, and that the record and the transaction determine each other. -/
def Obligations.RecordRoundTrip : Prop :=
  (∀ t : Transaction, t.toRecord.extractLsb' 0 64 = t.a ∧ t.toRecord.extractLsb' 64 64 = t.b ∧
    t.toRecord.extractLsb' 128 2 = t.op ∧ Transaction.ofRecord t.toRecord = t) ∧
  ∀ r : BitVec 130, (Transaction.ofRecord r).toRecord = r

/-- Records the host queues in an empty queue reach the ports bit for bit, as R40 lays out the record and R13 the ports.
That the very next step answers the first of them, and what it leaves in the queue and the results, is the model's choice
(log entries 2 and 3), and so is that a transaction still unanswered on the ports of `s` is overwritten and gets no result
(log entry 13). -/
def Obligations.QueuedRecordIsAnswered : Prop :=
  ∀ (s : State) (x : Transaction) (rs : List (BitVec 130)), s.pending = [] →
    ∃ t, step (s.enqueueRecords (x.toRecord :: rs)) = .next t ∧ t.inputs = some x ∧ t.outputs = some (answer x) ∧
      t.pending = (State.enqueueRecords rs s).pending ∧ t.results = s.results ++ [answer x]

/-- R27, for either value of `WIRE_BYTE_ORDER`: eight bytes that read back as the raw value, and only those. Which byte each
order sends first is the model's reading of `little` and `big` (log entry 7). -/
def Obligations.RawValueWireRoundTrip : Prop :=
  ∀ (order : ByteOrder) (v : Word),
    (Wire.toBytes order v).length = 8 ∧ Wire.ofBytes order (Wire.toBytes order v) = some v ∧
      (∀ bs, Wire.ofBytes order bs = some v → bs = Wire.toBytes order v) ∧
      (Wire.toBytes .little v).head? = some (v.extractLsb' 0 8) ∧ (Wire.toBytes .big v).head? = some (v.extractLsb' 56 8)

/-- R25, R75: where the outputs carry no value, as at reset and in every coherent state with no transaction on the inputs, a
read is a fault, whatever the latency and however long the host waits. That no transaction stands on the inputs at reset is
the model's inference (DEDUCED, log entry 1), and that a step from reset stops is its choice (log entries 2 and 4). -/
def Obligations.NoOutputBeforeTransaction : Prop :=
  (∀ (s : State) (n k : Nat), s.outputs = none →
    s.readAt n k = .error .outputNoValue ∧ s.readOutputs k = .error .outputNoValue) ∧
    (∀ (s : State) (n k : Nat), OutputsCoherent s → s.inputs = none →
      s.readAt n k = .error .outputNoValue ∧ s.readOutputs k = .error .outputNoValue) ∧
    State.reset.outputs = none ∧ State.reset.inputs = none ∧ step State.reset = .fault .noTransaction

/-- For every value `n` of `LATENCY`: a read earlier than `n` cycles after the transaction is presented has no value (R79),
and with `n` = 0 every read of an answered transaction is valid; this block reads with its own constant. That every read
from `n` cycles on is valid, while the inputs are held (R29), is the model's inference (DEDUCED, log entry 6). -/
def Obligations.ReadValidFromLatencyOn : Prop :=
  ∀ (s : State) (o : Output), s.outputs = some o →
    (∀ n k, n ≤ k → s.readAt n k = .ok o) ∧
    (∀ n k, k < n → s.readAt n k = .error .resultNotValid) ∧
    (∀ k, s.readAt 0 k = .ok o) ∧
    ∀ k, s.readOutputs k = s.readAt Config.latency k

/-- R80: whatever the commands, the operands and the results, two answered transactions become readable at the same time,
for every value `n` of `LATENCY`. -/
def Obligations.LatencySameForAllCommands : Prop :=
  ∀ (i j : Instr) (s s' t t' : State), exec i s = .next t → exec j s' = .next t' →
    ∀ n k, (∃ o, t.readAt n k = .ok o) ↔ ∃ o', t'.readAt n k = .ok o'

/-- R49: ADD, with its corner cases and its example. -/
def Obligations.AddResult : Prop :=
  decode 0b00#2 = .add ∧
  (∀ a b, Answers .add a b { y := enc64 (s64 a + s64 b), sat := false }) ∧
  Answers .add 0x7FFFFFFFFFFFFFFF#64 1#64 { y := 0x8000000000000000#64, sat := false } ∧
  (∀ a, Answers .add a a { y := enc64 (2 * s64 a), sat := false }) ∧
  Answers .add Constant.nan.word Constant.nan.word { y := Constant.zero.word, sat := false } ∧
  (∀ a, Answers .add a Constant.zero.word { y := a, sat := false }) ∧
  Answers .add Constant.one.word Constant.one.word { y := 0x0000000200000000#64, sat := false }

/-- R50: SUB, with its corner cases and its example. -/
def Obligations.SubResult : Prop :=
  decode 0b01#2 = .sub ∧
  (∀ a b, Answers .sub a b { y := enc64 (s64 a - s64 b), sat := false }) ∧
  (∀ a, Answers .sub a a { y := Constant.zero.word, sat := false }) ∧
  Answers .sub Constant.zero.word Constant.nan.word { y := Constant.nan.word, sat := false } ∧
  Answers .sub 0x4000000000000000#64 0xC000000000000000#64 { y := 0x8000000000000000#64, sat := false } ∧
  (∀ a, Answers .sub a Constant.zero.word { y := a, sat := false }) ∧
  Answers .sub Constant.one.word 0xFFFFFFFF00000000#64 { y := 0x0000000200000000#64, sat := false }

/-- R51: ADDSAT, with the overflow test and the saturation value written out, its corner cases and its example. -/
def Obligations.AddsatResult : Prop :=
  decode 0b10#2 = .addsat ∧
  (∀ a b, Answers .addsat a b
    (if a[63] = b[63] ∧ (enc64 (s64 a + s64 b))[63] ≠ a[63]
      then { y := if a[63] then 0x8000000000000002#64 else 0x7FFFFFFFFFFFFFFE#64, sat := true }
      else { y := enc64 (s64 a + s64 b), sat := false })) ∧
  Answers .addsat Constant.maxValue.word 1#64 { y := Constant.positiveInfinity.word, sat := false } ∧
  Answers .addsat 0xC000000000000000#64 0xC000000000000000#64 { y := Constant.nan.word, sat := false } ∧
  Answers .addsat Constant.nan.word Constant.nan.word { y := Constant.minValue.word, sat := true } ∧
  (∀ a, Answers .addsat a Constant.zero.word { y := a, sat := false }) ∧
  (∀ a b : Word, a[63] ≠ b[63] → Answers .addsat a b { y := enc64 (s64 a + s64 b), sat := false }) ∧
  Answers .addsat Constant.maxValue.word Constant.one.word { y := Constant.maxValue.word, sat := true }

/-- R52: SUBSAT, with the overflow test and the saturation value written out, its corner cases and its example. -/
def Obligations.SubsatResult : Prop :=
  decode 0b11#2 = .subsat ∧
  (∀ a b, Answers .subsat a b
    (if a[63] ≠ b[63] ∧ (enc64 (s64 a - s64 b))[63] ≠ a[63]
      then { y := if a[63] then 0x8000000000000002#64 else 0x7FFFFFFFFFFFFFFE#64, sat := true }
      else { y := enc64 (s64 a - s64 b), sat := false })) ∧
  (∀ a, Answers .subsat a a { y := Constant.zero.word, sat := false }) ∧
  Answers .subsat Constant.zero.word Constant.nan.word { y := Constant.maxValue.word, sat := true } ∧
  Answers .subsat 0xFFFFFFFFFFFFFFFF#64 Constant.nan.word { y := Constant.positiveInfinity.word, sat := false } ∧
  (∀ a b : Word, a[63] = b[63] → Answers .subsat a b { y := enc64 (s64 a - s64 b), sat := false }) ∧
  (∀ a, respond .subsat a Constant.nan.word ≠
    respond .addsat a (respond .sub Constant.zero.word Constant.nan.word).y) ∧
  Answers .subsat Constant.minValue.word Constant.one.word { y := Constant.minValue.word, sat := true }

/-- R60, with R18: with a transaction presented, every command answers, for every pair of operands, and never stops. -/
def Obligations.EveryTransactionCompletes : Prop :=
  ∀ (s : State) (x : Transaction), s.inputs = some x →
    (∀ i, exec i s = .next { s with outputs := some (respond i x.a x.b) }) ∧
    exec (decode x.op) s = .next { s with outputs := some (answer x) }

/-- The frame of all four commands: the inputs stay on the ports and the host's queue and results are untouched; only `y`
and `sat` get a value. With nothing presented a command stops, which is the model's choice (log entry 4). -/
def Obligations.CommandChangesOutputsOnly : Prop :=
  ∀ (i : Instr) (s : State),
    (∀ t, exec i s = .next t →
      t.inputs = s.inputs ∧ t.pending = s.pending ∧ t.results = s.results ∧ t.outputs.isSome = true) ∧
    (s.inputs = none → exec i s = .fault .noTransaction)

/-- R9: the two readings of a word and their ranges, and that enc64(n) is the one word whose unsigned reading is n modulo
2^64. -/
def Obligations.WordReadings : Prop :=
  (∀ v : Word, 0 ≤ u64 v ∧ u64 v < 2 ^ 64 ∧ -2 ^ 63 ≤ s64 v ∧ s64 v < 2 ^ 63 ∧
    s64 v = u64 v - (if v[63] then 2 ^ 64 else 0)) ∧
  (∀ (n : Int) (v : Word), u64 v = n % 2 ^ 64 ↔ v = enc64 n) ∧
  ∀ v : Word, enc64 (u64 v) = v ∧ enc64 (s64 v) = v

/-- R43: the exact results and their ranges. -/
def Obligations.ExactResultRanges : Prop :=
  ∀ a b : Word, exactSum a b = s64 a + s64 b ∧ exactDiff a b = s64 a - s64 b ∧
    -2 ^ 64 ≤ exactSum a b ∧ exactSum a b ≤ 2 ^ 64 - 2 ∧ -2 ^ 64 + 1 ≤ exactDiff a b ∧ exactDiff a b ≤ 2 ^ 64 - 1

/-- R44: ADD and SUB are the exact results modulo 2^64, and the same bits come from the unsigned readings, the difference by
the complement of `b` and a carry in. -/
def Obligations.WrappedResultsBitForBit : Prop :=
  ∀ a b : Word,
    Answers .add a b { y := enc64 (exactSum a b), sat := false } ∧
    Answers .sub a b { y := enc64 (exactDiff a b), sat := false } ∧
    Answers .add a b { y := enc64 (u64 a + u64 b), sat := false } ∧
    Answers .sub a b { y := enc64 (u64 a + u64 (~~~b) + 1), sat := false } ∧
    (u64 (respond .add a b).y = exactSum a b % 2 ^ 64) ∧ (u64 (respond .sub a b).y = exactDiff a b % 2 ^ 64)

/-- R45: an operation overflows when its exact result is outside the signed range, that is when the wrapped result does not
read back as it; the two directions; and without overflow every command's `y` reads back as the exact result. -/
def Obligations.OverflowIsLossOfExactValue : Prop :=
  ∀ (i : Instr) (a b : Word), let e := exactResult i a b
    (overflows e = true ↔ ¬(-2 ^ 63 ≤ e ∧ e ≤ 2 ^ 63 - 1)) ∧ (overflows e = true ↔ s64 (enc64 e) ≠ e) ∧
    (overflows e = true ↔ e > 2 ^ 63 - 1 ∨ e < -2 ^ 63) ∧ (overflows e = false → s64 (respond i a b).y = e)

/-- R46: the sign test of an addition, that ADDSAT raises sat by it, and that it is exactly overflow (R45) in both
readings. -/
def Obligations.AdditionOverflowTest : Prop :=
  ∀ a b : Word,
    ovfAdd a b = ((a[63] == b[63]) && ((enc64 (s64 a + s64 b))[63] != a[63])) ∧
    (respond .addsat a b).sat = ovfAdd a b ∧
    (ovfAdd a b = true ↔ s64 a + s64 b < -2 ^ 63 ∨ 2 ^ 63 - 1 < s64 a + s64 b) ∧
    (ovfAdd a b = true ↔ s64 (enc64 (s64 a + s64 b)) ≠ s64 a + s64 b) ∧
    (a[63] ≠ b[63] → -2 ^ 63 ≤ s64 a + s64 b ∧ s64 a + s64 b ≤ 2 ^ 63 - 1) ∧
    (a[63] = b[63] → (ovfAdd a b = true ↔ (enc64 (s64 a + s64 b))[63] ≠ a[63]))

/-- R47: the sign test of a subtraction, that SUBSAT raises sat by it, that it is exactly overflow (R45) in each of the
three cases of the signs, and that `1 − 2` does not overflow. -/
def Obligations.SubtractionOverflowTest : Prop :=
  (∀ a b : Word,
    ovfSub a b = ((a[63] != b[63]) && ((enc64 (s64 a - s64 b))[63] != a[63])) ∧
    (respond .subsat a b).sat = ovfSub a b ∧
    (ovfSub a b = true ↔ s64 a - s64 b < -2 ^ 63 ∨ 2 ^ 63 - 1 < s64 a - s64 b) ∧
    (a[63] = b[63] → -2 ^ 63 < s64 a - s64 b ∧ s64 a - s64 b < 2 ^ 63) ∧
    (a[63] = false → b[63] = true → 0 < s64 a - s64 b ∧ (ovfSub a b = true ↔ (enc64 (s64 a - s64 b))[63] = true)) ∧
    (a[63] = true → b[63] = false → s64 a - s64 b < 0 ∧ (ovfSub a b = true ↔ (enc64 (s64 a - s64 b))[63] = false))) ∧
  ovfSub 1#64 2#64 = false

/-- R48: the value that replaces an overflowing result, its two constants, and that its direction is that of the
overflow. -/
def Obligations.SaturationValueDirection : Prop :=
  config.satMax = 0x7FFFFFFFFFFFFFFE#64 ∧ config.satMin = 0x8000000000000002#64 ∧
  ∀ a b : Word,
    (ovfAdd a b = true → (respond .addsat a b).y = satValue config a) ∧
    (ovfSub a b = true → (respond .subsat a b).y = satValue config a) ∧
    (ovfAdd a b = true → a[63] = b[63] ∧ (exactSum a b < 0 ↔ a[63] = true)) ∧
    (ovfSub a b = true → (exactDiff a b < 0 ↔ a[63] = true)) ∧
    (a[63] = false → satValue config a = config.satMax) ∧ (a[63] = true → satValue config a = config.satMin) ∧
    (2 ^ 63 - 1 < exactSum a b → satValue config a = config.satMax) ∧
    (exactSum a b < -2 ^ 63 → satValue config a = config.satMin) ∧
    (2 ^ 63 - 1 < exactDiff a b → satValue config a = config.satMax) ∧
    (exactDiff a b < -2 ^ 63 → satValue config a = config.satMin)

/-- R54: the closed form of the two saturating commands in every state that presents a transaction; it is not a clamp, and a
saturated result has the sign of the exact one. -/
def Obligations.SaturatingClosedForm : Prop :=
  ∀ (i : Instr) (a b : Word), i = .addsat ∨ i = .subsat →
    let e := exactResult i a b
    Answers i a b
      (if 2 ^ 63 - 1 < e then { y := 0x7FFFFFFFFFFFFFFE#64, sat := true }
        else if e < -2 ^ 63 then { y := 0x8000000000000002#64, sat := true }
        else { y := enc64 e, sat := false }) ∧
    (e = 2 ^ 63 - 1 → respond i a b = { y := Constant.positiveInfinity.word, sat := false }) ∧
    (e = -2 ^ 63 + 1 → respond i a b = { y := Constant.negativeInfinity.word, sat := false }) ∧
    (e = -2 ^ 63 → respond i a b = { y := Constant.nan.word, sat := false }) ∧
    ((respond i a b).sat = true → (s64 (respond i a b).y < 0 ↔ e < 0) ∧ (0 < s64 (respond i a b).y ↔ 0 < e))

/-- R22: sat is 1 exactly on a saturating command that overflows, then `y` is a saturation value; a wrapping command never
raises it; and it describes this transaction only, whatever stood on the outputs before. -/
def Obligations.SatExactlyOnSaturatingOverflow : Prop :=
  ∀ (s : State) (x : Transaction), s.inputs = some x →
    ∃ o, exec (decode x.op) s = .next { s with outputs := some o } ∧
      (o.sat = true ↔ x.op[1] = true ∧ overflows (exactResult (decode x.op) x.a x.b) = true) ∧
      (o.sat = true → o.y = 0x7FFFFFFFFFFFFFFE#64 ∨ o.y = 0x8000000000000002#64) ∧
      (x.op[1] = false → o.sat = false) ∧
      ∀ old : Option Output, exec (decode x.op) { s with outputs := old } = .next { s with outputs := some o }

/-- R8, R59: the two saturation constants are the only configuration, and only a saturated result reads them. -/
def Obligations.OnlySaturationReadsConfig : Prop :=
  ∀ (cfg : Config) (i : Instr) (a b : Word),
    (respondWith cfg i a b).sat = (respond i a b).sat ∧
    ((respond i a b).sat = false → respondWith cfg i a b = respond i a b) ∧
    ((respond i a b).sat = true →
      (respondWith cfg i a b).y = if exactResult i a b < 0 then cfg.satMin else cfg.satMax)

/-- R19: the five sentinels. -/
def Obligations.SentinelTable : Prop :=
  s64 Constant.positiveInfinity.word = 2 ^ 63 - 1 ∧ Constant.positiveInfinity.word = 0x7FFFFFFFFFFFFFFF#64 ∧
  s64 Constant.maxValue.word = 2 ^ 63 - 2 ∧ Constant.maxValue.word = 0x7FFFFFFFFFFFFFFE#64 ∧
  Constant.maxValue.word = config.satMax ∧
  s64 Constant.minValue.word = -2 ^ 63 + 2 ∧ Constant.minValue.word = 0x8000000000000002#64 ∧
  Constant.minValue.word = config.satMin ∧
  s64 Constant.negativeInfinity.word = -2 ^ 63 + 1 ∧ Constant.negativeInfinity.word = 0x8000000000000001#64 ∧
  s64 Constant.nan.word = -2 ^ 63 ∧ Constant.nan.word = 0x8000000000000000#64 ∧
  s64 Constant.minValue.word = -s64 Constant.maxValue.word ∧
  value Constant.positiveInfinity.word = (2 ^ 63 - 1) / 2 ^ 32 ∧ value Constant.maxValue.word = (2 ^ 63 - 2) / 2 ^ 32 ∧
  value Constant.minValue.word = (-2 ^ 63 + 2) / 2 ^ 32 ∧ value Constant.negativeInfinity.word = (-2 ^ 63 + 1) / 2 ^ 32 ∧
  value Constant.nan.word = -2147483648

/-- R20: a sentinel operand follows the rule of every word, on overflow as without it (with R20's own MaxValue + 1, read as
raw 1 and as `One`, under both variants); a result that does not overflow may be any sentinel with sat = 0; and only the
overflow replacement of a saturating command writes a saturation value with sat = 1. -/
def Obligations.SentinelsAreOrdinaryWords : Prop :=
  (∀ (i : Instr) (a b : Word), Answers i a b
    (if i.isSat = true ∧ overflows (exactResult i a b) = true
      then { y := if exactResult i a b < 0 then config.satMin else config.satMax, sat := true }
      else { y := enc64 (exactResult i a b), sat := false })) ∧
  Answers .addsat Constant.maxValue.word 1#64 { y := Constant.positiveInfinity.word, sat := false } ∧
  Answers .addsat Constant.maxValue.word Constant.one.word { y := Constant.maxValue.word, sat := true } ∧
  Answers .add Constant.maxValue.word 1#64 { y := Constant.positiveInfinity.word, sat := false } ∧
  Answers .add Constant.maxValue.word Constant.one.word { y := 0x80000000FFFFFFFE#64, sat := false } ∧
  (∀ (i : Instr) (a b : Word), (respond i a b).sat = true →
    i.isSat = true ∧ overflows (exactResult i a b) = true ∧
      ((respond i a b).y = config.satMax ∨ (respond i a b).y = config.satMin)) ∧
  ∀ c : Constant, (∃ a b : Word, a ≠ 0#64 ∧ b ≠ 0#64 ∧ respond .addsat a b = { y := c.word, sat := false }) ∧
    ∃ a b : Word, a ≠ 0#64 ∧ b ≠ 0#64 ∧ respond .subsat a b = { y := c.word, sat := false }

/-- R55: the identities, and where the saturating negation breaks the second. -/
def Obligations.ArithmeticIdentities : Prop :=
  (∀ a b : Word, respond .add a b = respond .add b a ∧ respond .addsat a b = respond .addsat b a) ∧
  (∀ (i : Instr) (a : Word), respond i a Constant.zero.word = { y := a, sat := false }) ∧
  (∀ a : Word, respond .sub a a = { y := Constant.zero.word, sat := false } ∧
    respond .subsat a a = { y := Constant.zero.word, sat := false } ∧
    (respond .add a (respond .sub Constant.zero.word a).y).y = Constant.zero.word ∧
    (a ≠ Constant.nan.word →
      respond .addsat a (respond .subsat Constant.zero.word a).y = { y := Constant.zero.word, sat := false })) ∧
  (respond .subsat Constant.zero.word Constant.nan.word).y = Constant.maxValue.word ∧
  (respond .addsat Constant.nan.word (respond .subsat Constant.zero.word Constant.nan.word).y).y ≠ Constant.zero.word

/-- R56: any tree of ADD and SUB computes the exact result modulo 2^64; ADDSAT and SUBSAT are not associative, by program P5
and by cases of SUBSAT under both regroupings; and a saturated value is not sticky (P5's second line comes down from it). -/
def Obligations.WrappingTreesExactModulo : Prop :=
  (∀ t : WrapTree, t.run = enc64 t.exact) ∧
  (respond .addsat (respond .addsat Constant.maxValue.word Constant.one.word).y 0xFFFFFFFF00000000#64 =
    { y := 0x7FFFFFFEFFFFFFFE#64, sat := false }) ∧
  (respond .addsat Constant.maxValue.word (respond .addsat Constant.one.word 0xFFFFFFFF00000000#64).y =
    { y := Constant.maxValue.word, sat := false }) ∧
  (∃ a b c : Word, (respond .subsat (respond .subsat a b).y c).y ≠ (respond .subsat a (respond .subsat b c).y).y) ∧
  ∃ a b c : Word, (respond .subsat (respond .subsat a b).y c).y ≠ (respond .subsat a (respond .addsat b c).y).y

/-- R57: SUBSAT is ADDSAT of the wrapping negation for every `b` but `NaN`, and differs from it for `NaN`. -/
def Obligations.SubsatVersusNegatedAddsat : Prop :=
  (∀ a b : Word, b ≠ Constant.nan.word →
    respond .subsat a b = respond .addsat a (respond .sub Constant.zero.word b).y) ∧
  (respond .sub Constant.zero.word Constant.nan.word).y = Constant.nan.word ∧
  (∀ a : Word, respond .subsat a Constant.nan.word ≠ respond .addsat a Constant.nan.word) ∧
  respond .subsat Constant.zero.word Constant.nan.word = { y := Constant.maxValue.word, sat := true } ∧
  respond .addsat Constant.zero.word Constant.nan.word = { y := Constant.nan.word, sat := false }

/-- R58: without overflow the semantic value of `y` is exactly the sum or difference of the operands' values, and a carry or
borrow out of the fraction passes into the integer part. -/
def Obligations.FixedPointExact : Prop :=
  (∀ (i : Instr) (a b : Word), overflows (exactResult i a b) = false →
    value (respond i a b).y = if i.isSub then value a - value b else value a + value b) ∧
  (∀ a b : Word, overflows (exactSum a b) = false →
    intPart (respond .add a b).y = intPart a + intPart b + (if 2 ^ 32 ≤ fracPart a + fracPart b then 1 else 0)) ∧
  (∀ a b : Word, overflows (exactDiff a b) = false →
    intPart (respond .sub a b).y = intPart a - intPart b - (if fracPart a < fracPart b then 1 else 0)) ∧
  respond .add 0x00000000FFFFFFFF#64 1#64 = { y := Constant.one.word, sat := false }

/-- R11: the semantic value, and its integer and fractional parts. -/
def Obligations.SemanticValueParts : Prop :=
  ∀ v : Word, value v = (s64 v : Rat) / 2 ^ 32 ∧ s64 v = intPart v * 2 ^ 32 + fracPart v ∧
    0 ≤ fracPart v ∧ fracPart v < 2 ^ 32

/-- R42: what each pseudo-instruction's expansion answers, for every operand form that resolves to a word `v`. -/
def Obligations.PseudoInstructionResults : Prop :=
  ∀ (rs : List Output) (src : Source) (v : Word), src.resolve rs = .ok v →
    (∃ x, (Stmt.neg src).expand.resolve rs = .ok x ∧ answer x = { y := enc64 (-s64 v), sat := false } ∧
      (v = Constant.nan.word → (answer x).y = Constant.nan.word)) ∧
    (∃ x, (Stmt.negsat src).expand.resolve rs = .ok x ∧
      (v = Constant.nan.word → answer x = { y := Constant.maxValue.word, sat := true }) ∧
      (v ≠ Constant.nan.word → (answer x).sat = false ∧ s64 (answer x).y = -s64 v)) ∧
    (∃ x, (Stmt.mov src).expand.resolve rs = .ok x ∧ answer x = { y := v, sat := false }) ∧
    (∃ x, (Stmt.dbl src).expand.resolve rs = .ok x ∧ answer x = { y := enc64 (2 * s64 v), sat := false }) ∧
    ∃ x, (Stmt.dblsat src).expand.resolve rs = .ok x ∧
      answer x = if 2 ^ 63 - 1 < 2 * s64 v then { y := 0x7FFFFFFFFFFFFFFE#64, sat := true }
        else if 2 * s64 v < -2 ^ 63 then { y := 0x8000000000000002#64, sat := true }
        else { y := enc64 (2 * s64 v), sat := false }

/-- One step is the decoded command run on the presented transaction, and the host keeping the outputs (10_state.md R13,
R15; 30_encoding.md R39). The queue, one transaction a step and the empty-queue case are the model's choice (log entries 2
to 4), and so is that a line overwrites a transaction still unanswered on the ports (log entry 13); that presenting takes
the old outputs away is its inference (DEDUCED, log entry 6). -/
def Obligations.StepRunsDecodedCommand : Prop :=
  (∀ (s : State) (l : Line) (rest : List Line) (x : Transaction), s.pending = l :: rest → l.resolve s.results = .ok x →
    x.op = l.op ∧
    step s = andThen (exec (decode l.op) { inputs := some x, outputs := none, pending := rest, results := s.results })
      State.recordResult) ∧
  ∀ (s : State) (x : Transaction), s.pending = [] → s.inputs = some x → s.outputs = none →
    step s = andThen (exec (decode x.op) s) State.recordResult

/-- The word that `withFetchWord` places is the very next command to run, on zero operands, and answers as that command does
(R49 to R52, R59). That it runs next and adds one result is the model's choice (log entries 2, 3 and 10), also where a
transaction still stands unanswered on the ports (log entry 13). -/
def Obligations.FetchedWordRunsNext : Prop :=
  ∀ (s : State) (i : Instr),
    step (s.withFetchWord 8 (encode i).toNat) =
      .next { inputs := some { op := encode i, a := 0#64, b := 0#64 }, outputs := some (respond i 0#64 0#64),
              pending := s.pending.tail, results := s.results ++ [respond i 0#64 0#64] }

/-- After a step both outputs are the results of the one transaction that stands on the inputs, every valid read of them
gives the same answer, and running the command again while the inputs are held changes nothing (R29). That the host still
holds the inputs after the step is the model's choice (log entry 3), and that a read from the latency on is valid its
inference (log entry 6). -/
def Obligations.TransactionIsAtomic : Prop :=
  ∀ s t : State, step s = .next t →
    ∃ x, t.inputs = some x ∧ t.outputs = some (answer x) ∧
      (∀ n k, n ≤ k → t.readAt n k = .ok (answer x)) ∧ exec (decode x.op) t = .next t

/-- What one step does to the host's side: it uses up the line at the head of the queue and adds exactly one result at the
end, so an earlier result never changes (R30, R41). The queue, the results and one transaction a step are the model's choice
(log entries 2 and 3), and so are the two states with an unanswered transaction on the ports: with an empty queue the step
answers it (log entry 4), with a line queued it is overwritten and gets no result (log entry 13). -/
def Obligations.StepAddsOneResult : Prop :=
  ∀ s t : State, step s = .next t →
    t.pending = s.pending.tail ∧ t.results.length = s.results.length + 1 ∧
    t.results[s.results.length]? = t.outputs ∧ ∀ k, k < s.results.length → t.results[k]? = s.results[k]?

/-- The only two ways a step stops, both the model's own (log entries 4 and 5): nothing left to run, or a line that names a
result that does not exist, which stops the step even where a transaction stands unanswered on the ports (log entry 13). No
command is ever the cause (R60). -/
def Obligations.StepStopsOnlyWithoutTransaction : Prop :=
  ∀ s : State,
    (∀ f, step s = .fault f ↔ f = .noTransaction ∧ s.pending = [] ∧ (s.inputs = none ∨ s.outputs ≠ none)) ∧
    ∀ r, step s = .refused r → ∃ l rest k, s.pending = l :: rest ∧ (l.a = .result k ∨ l.b = .result k) ∧
      s.results.length ≤ k ∧ r = .unresolvedName k

/-- R23: two transactions with equal `op`, `a` and `b` give equal outputs, whatever the two states held before: in a step
and in a command. -/
def Obligations.OutputsIndependentOfHistory : Prop :=
  (∀ s s' t t' : State, step s = .next t → step s' = .next t' → t.inputs = t'.inputs → t.outputs = t'.outputs) ∧
  ∀ (i : Instr) (s s' t t' : State), exec i s = .next t → exec i s' = .next t' → s.inputs = s'.inputs →
    t.outputs = t'.outputs

/-- R30: an operand `tK` puts exactly the earlier `y` on its port, whatever has happened since. The queue and the step that
presents its next line are the model's choice (log entries 2 and 3), also where a transaction still stands unanswered on the
ports (log entry 13). -/
def Obligations.EarlierResultReachesPort : Prop :=
  ∀ (s : State) (op : BitVec 2) (k : Nat) (o : Output) (src : Source) (v : Word) (rest : List Line),
    s.results[k]? = some o → src.resolve s.results = .ok v →
    (s.pending = { op := op, a := .result k, b := src } :: rest →
      ∃ t, step s = .next t ∧ t.inputs = some { op := op, a := o.y, b := v } ∧
        t.outputs = some (respond (decode op) o.y v)) ∧
    (s.pending = { op := op, a := src, b := .result k } :: rest →
      ∃ t, step s = .next t ∧ t.inputs = some { op := op, a := v, b := o.y } ∧
        t.outputs = some (respond (decode op) v o.y))

/-- The invariant holds at reset: no output without a transaction (R25, R75); no result yet and an empty queue, which are
the model's choice (log entry 2). -/
def Obligations.ResetSatisfiesInvariant : Prop := Inv State.reset

/-- From every state that meets the invariant, a step gives one that meets it: outputs only as the function of the inputs
(R13, R25), sat = 1 only on a saturation value (R22), queued names only of results that will exist (R41). The queue, the
results and one transaction a step are the model's choice (log entries 2 and 3), and so is what a step does with an
unanswered transaction on the ports, with an empty queue (log entry 4) and with a line queued (log entry 13). -/
def Obligations.StepKeepsInvariant : Prop :=
  ∀ s t : State, Inv s → step s = .next t → Inv t

/-- Under the invariant, whose queued names resolve (R41), a step completes whenever there is something to run: no command
stops (R60). The queue, and that a step with an empty queue answers the transaction that stands unanswered on the ports and
with a line queued overwrites it, are the model's choice (log entries 2, 4 and 13). -/
def Obligations.InvariantStateProgresses : Prop :=
  ∀ s : State, Inv s → s.pending ≠ [] ∨ (s.inputs.isSome = true ∧ s.outputs = none) → ∃ t, step s = .next t

/-- A run is a finite sequence of transactions (R77): from every state that meets the invariant, as many steps as lines are
queued present them all, in order and each answered (the result of the k-th queued line is its answer on the results before
it), and leave the invariant and every earlier result in place. One step a line, in the order of the queue, is the model's
choice (log entries 2 and 3), and so is that a transaction still unanswered on the ports of `s` gets no result, on which the
number and the indices of the results rest (log entry 13). -/
def Obligations.QueueRunsToItsEnd : Prop :=
  ∀ s : State, Inv s →
    ∃ t, Sys2Proof.core.run s.pending.length s = .next t ∧ t.pending = [] ∧ Inv t ∧
      t.results.length = s.results.length + s.pending.length ∧ s.results <+: t.results ∧
      ∀ (k : Nat) (l : Line), s.pending[k]? = some l →
        ∃ x, l.resolve (t.results.take (s.results.length + k)) = .ok x ∧
          t.results[s.results.length + k]? = some (answer x)

/-- A program text that the reader accepts names earlier results only (R41), so queued where the host has queued and read
nothing it runs to its end. Which texts the reader accepts is the model's choice (log entry 12), and so is running what is
enqueued, one line a step (log entries 2 and 3), and that a transaction still unanswered on the ports of `s` gets no result
(log entry 13). -/
def Obligations.AcceptedTextRuns : Prop :=
  ∀ (text : List (List Char)) (ls : List Line) (s : State), Asm.parseProgram text = some ls →
    s.pending = [] → s.results = [] →
    ∃ t, Sys2Proof.core.run ls.length (s.enqueue ls) = .next t ∧ t.pending = [] ∧ t.results.length = text.length
end

