-- ==== Sys2Proof/Laws/Arith.lean ====
section
/-! SUPPORT. The two readings of a word, and what wrapping does to an exact result. -/

namespace Sys2Proof

/-- R9's formula is the two's-complement reading of Lean's library. -/
theorem s64_eq_toInt (v : Word) : s64 v = v.toInt := by
  unfold s64 u64
  rw [BitVec.toInt_eq_msb_cond, BitVec.msb_eq_getLsbD_last, BitVec.getLsbD_eq_getElem (by omega)]
  simp only [Nat.add_one_sub_one]
  split <;> simp

theorem s64_lower (v : Word) : -2 ^ 63 ≤ s64 v := by
  rw [s64_eq_toInt]; exact v.le_toInt

theorem s64_upper (v : Word) : s64 v < 2 ^ 63 := by
  rw [s64_eq_toInt]; exact v.toInt_lt

/-- The sign bit is the sign of the two's-complement reading. -/
theorem sign_bit (v : Word) : v[63] = decide (s64 v < 0) := by
  unfold s64 u64
  have h := v.isLt
  have hm := BitVec.msb_eq_decide v
  rw [BitVec.msb_eq_getLsbD_last, BitVec.getLsbD_eq_getElem (by omega)] at hm
  simp only [Nat.add_one_sub_one] at hm
  rw [hm]
  by_cases hv : 2 ^ 63 ≤ v.toNat <;> simp <;> omega

theorem s64_injective {v w : Word} (h : s64 v = s64 w) : v = w := by
  rw [s64_eq_toInt, s64_eq_toInt] at h
  exact BitVec.eq_of_toInt_eq h

/-- Reading back a wrapped integer. -/
theorem s64_enc64 (n : Int) : s64 (enc64 n) = n.bmod (2 ^ 64) := by
  rw [s64_eq_toInt, enc64, BitVec.toInt_ofInt]

@[simp] theorem enc64_s64 (v : Word) : enc64 (s64 v) = v := by
  rw [s64_eq_toInt]; exact BitVec.ofInt_toInt

/-- Reading back a wrapped integer, unsigned. -/
theorem u64_enc64 (n : Int) : u64 (enc64 n) = n % 2 ^ 64 := by
  simp [u64, enc64, BitVec.toNat_ofInt]
  omega

@[simp] theorem enc64_u64 (v : Word) : enc64 (u64 v) = v := by simp [enc64, u64]

/-- The sign bit of a wrapped integer. -/
theorem enc64_sign_bit (n : Int) : (enc64 n)[63] = decide (n.bmod (2 ^ 64) < 0) := by
  rw [sign_bit, s64_enc64]

/-- An integer inside the signed range wraps to itself. -/
theorem s64_enc64_of_range {n : Int} (h₁ : -2 ^ 63 ≤ n) (h₂ : n ≤ 2 ^ 63 - 1) : s64 (enc64 n) = n := by
  rw [s64_enc64, Int.bmod_eq_of_le (by omega) (by omega)]

theorem enc64_add (m n : Int) : enc64 (m + n) = enc64 m + enc64 n := by
  simp only [enc64, BitVec.ofInt_add]

theorem enc64_sub (m n : Int) : enc64 (m - n) = enc64 m - enc64 n := by
  apply BitVec.eq_of_toInt_eq
  simp [enc64, BitVec.toInt_sub]

namespace Machine

theorem rAdd_eq_add (a b : Word) : rAdd a b = a + b := by simp [rAdd, exactSum, enc64_add]

theorem rSub_eq_sub (a b : Word) : rSub a b = a - b := by simp [rSub, exactDiff, enc64_sub]

theorem overflows_iff (n : Int) : overflows n = true ↔ n < -2 ^ 63 ∨ 2 ^ 63 - 1 < n := by simp [overflows]

/-- Where the exact sum fits, it is what the wrapped sum reads back as. -/
theorem s64_rAdd_of_fits {a b : Word} (h : overflows (exactSum a b) = false) : s64 (rAdd a b) = exactSum a b := by
  simp [overflows] at h
  exact s64_enc64_of_range (by omega) (by omega)

/-- Where the exact difference fits, it is what the wrapped difference reads back as. -/
theorem s64_rSub_of_fits {a b : Word} (h : overflows (exactDiff a b) = false) : s64 (rSub a b) = exactDiff a b := by
  simp [overflows] at h
  exact s64_enc64_of_range (by omega) (by omega)

/-- The sign test of an addition is overflow of the exact sum (R45, R46). -/
theorem ovfAdd_eq_overflows (a b : Word) : ovfAdd a b = overflows (exactSum a b) := by
  have ha := s64_lower a
  have ha' := s64_upper a
  have hb := s64_lower b
  have hb' := s64_upper b
  rw [Bool.eq_iff_iff, overflows_iff]
  unfold ovfAdd rAdd exactSum
  rw [enc64_sign_bit, sign_bit a, sign_bit b]
  simp only [Bool.and_eq_true, beq_iff_eq, bne_iff_ne, ne_eq, decide_eq_decide]
  rw [Int.bmod_def]
  split <;> omega

/-- The sign test of a subtraction is overflow of the exact difference (R45, R47). -/
theorem ovfSub_eq_overflows (a b : Word) : ovfSub a b = overflows (exactDiff a b) := by
  have ha := s64_lower a
  have ha' := s64_upper a
  have hb := s64_lower b
  have hb' := s64_upper b
  rw [Bool.eq_iff_iff, overflows_iff]
  unfold ovfSub rSub exactDiff
  rw [enc64_sign_bit, sign_bit a, sign_bit b]
  simp only [Bool.and_eq_true, bne_iff_ne, ne_eq, decide_eq_decide]
  rw [Int.bmod_def]
  split <;> omega

/-- The saturation value by the sign of the two's-complement reading (R48). -/
theorem satValue_eq_ite (cfg : Config) (a : Word) : satValue cfg a = if s64 a < 0 then cfg.satMin else cfg.satMax := by
  unfold satValue
  rw [sign_bit]
  simp

end Machine

end Sys2Proof
end

