-- ==== Sys2Proof/Laws/State.lean ====
section
/-! SUPPORT. One lemma per field per update of the state, and the operations on an empty or a filled port. -/

namespace Sys2Proof.Machine

@[simp] theorem State.present_inputs (t : Transaction) (s : State) : (s.present t).inputs = some t := rfl
@[simp] theorem State.present_outputs (t : Transaction) (s : State) : (s.present t).outputs = none := rfl
@[simp] theorem State.present_pending (t : Transaction) (s : State) : (s.present t).pending = s.pending := rfl
@[simp] theorem State.present_results (t : Transaction) (s : State) : (s.present t).results = s.results := rfl

@[simp] theorem State.drive_inputs (o : Output) (s : State) : (s.drive o).inputs = s.inputs := rfl
@[simp] theorem State.drive_outputs (o : Output) (s : State) : (s.drive o).outputs = some o := rfl
@[simp] theorem State.drive_pending (o : Output) (s : State) : (s.drive o).pending = s.pending := rfl
@[simp] theorem State.drive_results (o : Output) (s : State) : (s.drive o).results = s.results := rfl

@[simp] theorem State.enqueue_inputs (ls : List Line) (s : State) : (s.enqueue ls).inputs = s.inputs := rfl
@[simp] theorem State.enqueue_outputs (ls : List Line) (s : State) : (s.enqueue ls).outputs = s.outputs := rfl
@[simp] theorem State.enqueue_pending (ls : List Line) (s : State) : (s.enqueue ls).pending = s.pending ++ ls := rfl
@[simp] theorem State.enqueue_results (ls : List Line) (s : State) : (s.enqueue ls).results = s.results := rfl

@[simp] theorem State.withFetchWord_inputs (s : State) (n w : Nat) : (s.withFetchWord n w).inputs = s.inputs := rfl
@[simp] theorem State.withFetchWord_outputs (s : State) (n w : Nat) : (s.withFetchWord n w).outputs = s.outputs := rfl
@[simp] theorem State.withFetchWord_pending (s : State) (n w : Nat) :
    (s.withFetchWord n w).pending = queueWithWord n w s.pending := rfl
@[simp] theorem State.withFetchWord_results (s : State) (n w : Nat) : (s.withFetchWord n w).results = s.results := rfl

@[simp] theorem State.reset_inputs : State.reset.inputs = none := rfl
@[simp] theorem State.reset_outputs : State.reset.outputs = none := rfl
@[simp] theorem State.reset_pending : State.reset.pending = [] := rfl
@[simp] theorem State.reset_results : State.reset.results = [] := rfl

/-- A read of settled outputs answers exactly the value on the ports. -/
theorem State.settledOutputs_ok {s : State} {o : Output} : s.settledOutputs = .ok o ↔ s.outputs = some o := by
  unfold State.settledOutputs
  split <;> simp_all

@[simp] theorem andThen_next (s : State) (k : State → Host.Outcome State Fault Refusal) :
    andThen (.next s) k = k s := rfl
@[simp] theorem andThen_fault (e : Fault) (k : State → Host.Outcome State Fault Refusal) :
    andThen (.fault e) k = .fault e := rfl
@[simp] theorem andThen_refused (e : Refusal) (k : State → Host.Outcome State Fault Refusal) :
    andThen (.refused e) k = .refused e := rfl

/-- What a bound next state says of its two parts. -/
theorem andThen_eq_next {r : Host.Outcome State Fault Refusal} {k : State → Host.Outcome State Fault Refusal} {t : State} :
    andThen r k = .next t ↔ ∃ u, r = .next u ∧ k u = .next t := by
  cases r <;> simp

end Sys2Proof.Machine
end

