-- ==== Sys2Proof/Laws/Ops.lean ====
section
/-! SUPPORT. What each shared operation can do, said once. -/

namespace Sys2Proof.Machine

/-- A command that answers a next state found a transaction on the ports and changed the outputs only. -/
theorem transact_eq_next {f : Word → Word → Output} {s t : State} :
    transact f s = .next t ↔ ∃ x, s.inputs = some x ∧ t = s.drive (f x.a x.b) := by
  unfold transact
  cases s.inputs <;> simp [eq_comm]

theorem transact_presented {f : Word → Word → Output} {s : State} {x : Transaction} (h : s.inputs = some x) :
    transact f s = .next (s.drive (f x.a x.b)) := by
  simp [transact, h]

/-- Every command is its outputs on the presented operands. -/
theorem exec_eq_transact (i : Instr) (s : State) : exec i s = transact (respond i) s := by
  cases i <;> rfl

theorem exec_eq_next {i : Instr} {s t : State} :
    exec i s = .next t ↔ ∃ x, s.inputs = some x ∧ t = s.drive (respond i x.a x.b) := by
  rw [exec_eq_transact, transact_eq_next]

theorem recordResult_eq_next {s t : State} :
    s.recordResult = .next t ↔ ∃ o, s.outputs = some o ∧ t = { s with results := s.results ++ [o] } := by
  unfold State.recordResult State.settledOutputs
  cases s.outputs <;> simp [eq_comm]

@[simp] theorem saturate_sat (cfg : Config) (v : Bool) (a r : Word) : (saturate cfg v a r).sat = v := by
  cases v <;> rfl

theorem saturate_y (cfg : Config) (v : Bool) (a r : Word) :
    (saturate cfg v a r).y = if v then satValue cfg a else r := by
  cases v <;> rfl

/-- A saturation value is one of the two constants. -/
theorem satValue_cases (cfg : Config) (a : Word) : satValue cfg a = cfg.satMax ∨ satValue cfg a = cfg.satMin := by
  unfold satValue
  split <;> simp

/-- With sat = 1, y is one of the two saturation constants. -/
theorem respond_sat_y (i : Instr) (a b : Word) (h : (respond i a b).sat = true) :
    (respond i a b).y = config.satMax ∨ (respond i a b).y = config.satMin := by
  have key (v : Bool) (r : Word) (hv : (saturate config v a r).sat = true) :
      (saturate config v a r).y = config.satMax ∨ (saturate config v a r).y = config.satMin := by
    rw [saturate_sat] at hv
    simpa [saturate_y, hv] using satValue_cases config a
  cases i with
  | add => cases h
  | sub => cases h
  | addsat => exact key _ _ h
  | subsat => exact key _ _ h

end Sys2Proof.Machine
end

