-- ==== Sys2Proof/Laws/PerInstr.lean ====
section
/-! SUPPORT. Statements about every command as syntax, one lemma per constructor. -/

namespace Sys2Proof.Laws

/-- The command's word of the opcode map, padded to a byte, decodes to the command and to no other (30_encoding.md R37). -/
def TableWord.Statement (i : Instr) : Prop :=
  decodeTableWord 8 (encode i).toNat = some i ∧
    ∀ w, decodeTableWord 8 w = some i → w = (encode i).toNat

/-- No number from 4 on is the word of a command. -/
theorem TableWord.lt_four {w : Nat} {i : Instr} (h : decodeTableWord 8 w = some i) : w < 4 := by
  unfold decodeTableWord decodeNat at h
  by_contra hw
  simp [hw, Except.toOption] at h

theorem TableWord.add : TableWord.Statement .add := by
  refine ⟨by decide, fun w h => ?_⟩
  have := TableWord.lt_four h
  interval_cases w <;> revert h <;> decide

theorem TableWord.sub : TableWord.Statement .sub := by
  refine ⟨by decide, fun w h => ?_⟩
  have := TableWord.lt_four h
  interval_cases w <;> revert h <;> decide

theorem TableWord.addsat : TableWord.Statement .addsat := by
  refine ⟨by decide, fun w h => ?_⟩
  have := TableWord.lt_four h
  interval_cases w <;> revert h <;> decide

theorem TableWord.subsat : TableWord.Statement .subsat := by
  refine ⟨by decide, fun w h => ?_⟩
  have := TableWord.lt_four h
  interval_cases w <;> revert h <;> decide

end Sys2Proof.Laws
end

