-- ==== Sys2Proof/Laws/Step.lean ====
section
/-! SUPPORT. Everything one step can do, said once, and the resolution of a well-formed line. -/

namespace Sys2Proof

/-- An operand resolves exactly when it is well formed after the results that exist. -/
theorem Source.resolve_isOk (rs : List Machine.Output) (x : Source) :
    (∃ v, x.resolve rs = .ok v) ↔ x.wf rs.length = true := by
  cases x with
  | lit v => simp [Source.resolve, Source.wf]
  | const c => simp [Source.resolve, Source.wf]
  | result k =>
    by_cases h : k < rs.length <;> simp [Source.resolve, Source.wf, Machine.resultY, h]

/-- A line that resolves presents its own command bits and its resolved operands. -/
theorem Line.resolve_eq_ok {rs : List Machine.Output} {l : Line} {t : Transaction} :
    l.resolve rs = .ok t ↔ l.op = t.op ∧ l.a.resolve rs = .ok t.a ∧ l.b.resolve rs = .ok t.b := by
  unfold Line.resolve
  cases t
  cases l.a.resolve rs <;> cases l.b.resolve rs <;> simp

theorem Line.resolve_isOk (rs : List Machine.Output) (l : Line) :
    (∃ t, l.resolve rs = .ok t) ↔ l.wf rs.length = true := by
  simp only [Line.resolve_eq_ok, Line.wf, Bool.and_eq_true, ← Source.resolve_isOk]
  constructor
  · rintro ⟨t, -, ha, hb⟩
    exact ⟨⟨_, ha⟩, ⟨_, hb⟩⟩
  · rintro ⟨⟨a, ha⟩, ⟨b, hb⟩⟩
    exact ⟨{ op := l.op, a := a, b := b }, rfl, ha, hb⟩

namespace Machine

/-- Running the presented command on a state that presents `x`: only the outputs change. -/
theorem runPresented_presented {s : State} {x : Transaction} (h : s.inputs = some x) :
    runPresented s = .next (s.drive (answer x)) := by
  simp [runPresented, presentedOp, h, exec_eq_transact, transact, answer]

/-- What a presented transaction leaves after its whole step. -/
theorem finish_presented {s : State} {x : Transaction} (h : s.inputs = some x) :
    andThen (runPresented s) State.recordResult =
      .next { s with outputs := some (answer x), results := s.results ++ [answer x] } := by
  rw [runPresented_presented h]
  rfl

/-- A step that answers a next state presented the next line, or answered the transaction that stood unanswered. -/
theorem step_cases {s t : State} (h : step s = .next t) :
    (∃ l rest x, s.pending = l :: rest ∧ l.resolve s.results = .ok x ∧
      t = { inputs := some x, outputs := some (answer x), pending := rest, results := s.results ++ [answer x] }) ∨
    (∃ x, s.pending = [] ∧ s.inputs = some x ∧ s.outputs = none ∧
      t = { s with outputs := some (answer x), results := s.results ++ [answer x] }) := by
  unfold step at h
  obtain ⟨u, hu, hk⟩ := andThen_eq_next.mp h
  unfold presentNext at hu
  split at hu
  · rename_i hp
    split at hu
    · rename_i hun
      cases hu
      obtain ⟨x, hx⟩ := Option.isSome_iff_exists.mp (Bool.and_eq_true .. ▸ hun : _ ∧ _).1
      have ho := Option.isNone_iff_eq_none.mp (Bool.and_eq_true .. ▸ hun : _ ∧ _).2
      rw [finish_presented hx] at hk
      cases hk
      exact .inr ⟨x, hp, hx, ho, rfl⟩
    · cases hu
  · rename_i l rest hp
    split at hu
    · cases hu
    · rename_i x hx
      cases hu
      rw [finish_presented (x := x) rfl] at hk
      cases hk
      exact .inl ⟨l, rest, x, hp, hx, rfl⟩

/-- A queued line whose operands resolve completes. -/
theorem step_queued {s : State} {l : Line} {rest : List Line} {x : Transaction} (hp : s.pending = l :: rest)
    (hx : l.resolve s.results = .ok x) :
    step s = .next { inputs := some x, outputs := some (answer x), pending := rest, results := s.results ++ [answer x] } := by
  unfold step presentNext
  simp only [hp, hx, andThen_next]
  rw [finish_presented (x := x) rfl]
  rfl

/-- What every completed step leaves: one transaction answered on the ports, one line used up, one result more. -/
theorem step_summary {s t : State} (h : step s = .next t) :
    ∃ x, t.inputs = some x ∧ t.outputs = some (answer x) ∧ t.pending = s.pending.tail ∧
      t.results = s.results ++ [answer x] := by
  rcases step_cases h with ⟨l, rest, x, hp, -, rfl⟩ | ⟨x, hp, hi, -, rfl⟩
  · exact ⟨x, rfl, rfl, by simp [hp], rfl⟩
  · exact ⟨x, hi, rfl, by simp [hp], rfl⟩

/-- A run takes its first step and goes on from there. -/
theorem run_succ {n : Nat} {s t : State} (h : step s = .next t) :
    Sys2Proof.core.run (n + 1) s = Sys2Proof.core.run n t := by
  have key {M : Host.Core} {s t : M.State} (h : M.step s = .next t) : M.run (n + 1) s = M.run n t := by
    rw [Host.Core.run, h]
  exact key (M := Sys2Proof.core) h

/-- A step uses up the line whose well-formedness it used, so the rest stays well formed. -/
theorem step_pendingResolves {s t : State} (hp : PendingResolves s) (h : step s = .next t) : PendingResolves t := by
  obtain ⟨x, -, -, h3, h4⟩ := step_summary h
  unfold PendingResolves at *
  rw [h3, h4]
  cases hq : s.pending with
  | nil => rfl
  | cons l ls =>
    rw [hq, Program.wf, Bool.and_eq_true] at hp
    simpa using hp.2

/-- What a command answers in every state that presents its operands is its function of them. -/
theorem answers_iff {i : Instr} {a b : Word} {o : Output} : Answers i a b o ↔ respond i a b = o := by
  constructor
  · intro h
    have := h { inputs := some { op := 0, a := a, b := b }, outputs := none, pending := [], results := [] } 0 rfl
    rw [exec_eq_transact, transact_presented rfl] at this
    simpa [State.drive] using this
  · rintro rfl s op h
    rw [exec_eq_transact, transact_presented h]
    rfl

end Machine

end Sys2Proof
end

