-- ==== Sys2Proof/Tests/Slice0.lean ====
section
/-! SUPPORT. The model's own tests. Expected values: the opcode map (30_encoding.md R37), the derived vectors V1 to V28 of
95_test_vectors.md, and the examples of the rules named at each test; and a witness for the hypotheses of each statement. -/

namespace Sys2Proof.Tests

open Sys2Proof Sys2Proof.Machine

/-- A state whose host presents one transaction. -/
def presenting (op : BitVec 2) (a b : Word) : State :=
  { inputs := some { op := op, a := a, b := b }, outputs := none, pending := [], results := [] }

/-- A state whose host has queued lines and read results. -/
def queued (ls : List Line) (rs : List Output) : State :=
  { inputs := none, outputs := none, pending := ls, results := rs }

/-- A state whose host has queued one transaction on literal operands. -/
def queuedWords (op : BitVec 2) (a b : Word) : State := queued [{ op := op, a := .lit a, b := .lit b }] []

/-- The outputs of a next state. -/
def outputsOf : Host.Outcome State Fault Refusal → Option Output
  | .next s => s.outputs
  | .fault _ => none
  | .refused _ => none

/-- The reason of a fault. -/
def faultOf : Host.Outcome State Fault Refusal → Option Fault
  | .next _ => none
  | .fault e => some e
  | .refused _ => none

/-- The reason of a refusal. -/
def refusalOf : Host.Outcome State Fault Refusal → Option Refusal
  | .next _ => none
  | .fault _ => none
  | .refused e => some e

/-- The next state. -/
def stateOf : Host.Outcome State Fault Refusal → Option State
  | .next s => some s
  | .fault _ => none
  | .refused _ => none

/-! ### Well-formedness refuses an ill-formed term (30_encoding.md R41) -/

theorem test_wf_source_later_name : Source.wf 1 (.result 1) = false := by decide
theorem test_wf_line_left : Line.wf 1 { op := 0, a := .result 1, b := .const .one } = false := by decide
theorem test_wf_line_right : Line.wf 1 { op := 0, a := .const .one, b := .result 2 } = false := by decide
theorem test_wf_program_own_name :
    Program.wf 0 [{ op := 0, a := .const .one, b := .const .one }, { op := 0, a := .result 0, b := .result 1 }] = false := by
  decide
theorem test_wf_program_earlier_name :
    Program.wf 0 [{ op := 0, a := .const .one, b := .const .one }, { op := 0, a := .result 0, b := .result 0 }] = true := by
  decide

/-! ### Decoding: the words of the opcode map, written out (R37) -/

theorem test_decode_add : decode 0b00#2 = .add ∧ decodeTableWord 8 0x0 = some .add := by decide
theorem test_decode_sub : decode 0b01#2 = .sub ∧ decodeTableWord 8 0x1 = some .sub := by decide
theorem test_decode_addsat : decode 0b10#2 = .addsat ∧ decodeTableWord 8 0x2 = some .addsat := by decide
theorem test_decode_subsat : decode 0b11#2 = .subsat ∧ decodeTableWord 8 0x3 = some .subsat := by decide
theorem test_decode_refuses_wider_word : decodeNat 4 = .error (.widerThanOpPort 4) ∧ decodeTableWord 8 4 = none := by decide

/-- The record of 95_test_vectors.md P2's first line. -/
theorem test_record_of_P2 :
    Transaction.ofRecord 0x100000001800000000000000000000000#130 =
      { op := 0b01#2, a := 0x0000000000000000#64, b := 0x0000000180000000#64 } := by decide

/-! ### The four commands on the vectors V1 to V28 -/

/-- One row of the table: the operands and the outputs of all four commands. -/
structure Row where
  a : Word
  b : Word
  add : Word
  sub : Word
  addsat : Output
  subsat : Output

/-- V1 to V14. -/
def rowsA : List Row :=
  [{ a := 0x0000000100000000#64, b := 0x0000000100000000#64,
     add := 0x0000000200000000#64, sub := 0x0000000000000000#64,
     addsat := ⟨0x0000000200000000#64, false⟩, subsat := ⟨0x0000000000000000#64, false⟩ }] ++
  [{ a := 0x0000000100000000#64, b := 0xFFFFFFFF00000000#64,
     add := 0x0000000000000000#64, sub := 0x0000000200000000#64,
     addsat := ⟨0x0000000000000000#64, false⟩, subsat := ⟨0x0000000200000000#64, false⟩ }] ++
  [{ a := 0x0000000080000000#64, b := 0x0000000080000000#64,
     add := 0x0000000100000000#64, sub := 0x0000000000000000#64,
     addsat := ⟨0x0000000100000000#64, false⟩, subsat := ⟨0x0000000000000000#64, false⟩ }] ++
  [{ a := 0x0000000280000000#64, b := 0xFFFFFFFF40000000#64,
     add := 0x00000001C0000000#64, sub := 0x0000000340000000#64,
     addsat := ⟨0x00000001C0000000#64, false⟩, subsat := ⟨0x0000000340000000#64, false⟩ }] ++
  [{ a := 0x00000000FFFFFFFF#64, b := 0x0000000000000001#64,
     add := 0x0000000100000000#64, sub := 0x00000000FFFFFFFE#64,
     addsat := ⟨0x0000000100000000#64, false⟩, subsat := ⟨0x00000000FFFFFFFE#64, false⟩ }] ++
  [{ a := 0x7FFFFFFFFFFFFFFF#64, b := 0x0000000000000001#64,
     add := 0x8000000000000000#64, sub := 0x7FFFFFFFFFFFFFFE#64,
     addsat := ⟨0x7FFFFFFFFFFFFFFE#64, true⟩, subsat := ⟨0x7FFFFFFFFFFFFFFE#64, false⟩ }] ++
  [{ a := 0x7FFFFFFFFFFFFFFE#64, b := 0x0000000000000001#64,
     add := 0x7FFFFFFFFFFFFFFF#64, sub := 0x7FFFFFFFFFFFFFFD#64,
     addsat := ⟨0x7FFFFFFFFFFFFFFF#64, false⟩, subsat := ⟨0x7FFFFFFFFFFFFFFD#64, false⟩ }] ++
  [{ a := 0x7FFFFFFFFFFFFFFE#64, b := 0x0000000100000000#64,
     add := 0x80000000FFFFFFFE#64, sub := 0x7FFFFFFEFFFFFFFE#64,
     addsat := ⟨0x7FFFFFFFFFFFFFFE#64, true⟩, subsat := ⟨0x7FFFFFFEFFFFFFFE#64, false⟩ }] ++
  [{ a := 0x7FFFFFFFFFFFFFFE#64, b := 0x7FFFFFFFFFFFFFFE#64,
     add := 0xFFFFFFFFFFFFFFFC#64, sub := 0x0000000000000000#64,
     addsat := ⟨0x7FFFFFFFFFFFFFFE#64, true⟩, subsat := ⟨0x0000000000000000#64, false⟩ }] ++
  [{ a := 0x8000000000000002#64, b := 0x8000000000000002#64,
     add := 0x0000000000000004#64, sub := 0x0000000000000000#64,
     addsat := ⟨0x8000000000000002#64, true⟩, subsat := ⟨0x0000000000000000#64, false⟩ }] ++
  [{ a := 0x8000000000000002#64, b := 0x0000000000000001#64,
     add := 0x8000000000000003#64, sub := 0x8000000000000001#64,
     addsat := ⟨0x8000000000000003#64, false⟩, subsat := ⟨0x8000000000000001#64, false⟩ }] ++
  [{ a := 0x8000000000000002#64, b := 0x0000000100000000#64,
     add := 0x8000000100000002#64, sub := 0x7FFFFFFF00000002#64,
     addsat := ⟨0x8000000100000002#64, false⟩, subsat := ⟨0x8000000000000002#64, true⟩ }] ++
  [{ a := 0x8000000000000000#64, b := 0x0000000000000000#64,
     add := 0x8000000000000000#64, sub := 0x8000000000000000#64,
     addsat := ⟨0x8000000000000000#64, false⟩, subsat := ⟨0x8000000000000000#64, false⟩ }] ++
  [{ a := 0x8000000000000000#64, b := 0x8000000000000000#64,
     add := 0x0000000000000000#64, sub := 0x0000000000000000#64,
     addsat := ⟨0x8000000000000002#64, true⟩, subsat := ⟨0x0000000000000000#64, false⟩ }]

/-- V15 to V28. -/
def rowsB : List Row :=
  [{ a := 0x8000000000000000#64, b := 0xFFFFFFFFFFFFFFFF#64,
     add := 0x7FFFFFFFFFFFFFFF#64, sub := 0x8000000000000001#64,
     addsat := ⟨0x8000000000000002#64, true⟩, subsat := ⟨0x8000000000000001#64, false⟩ }] ++
  [{ a := 0x0000000000000000#64, b := 0x8000000000000000#64,
     add := 0x8000000000000000#64, sub := 0x8000000000000000#64,
     addsat := ⟨0x8000000000000000#64, false⟩, subsat := ⟨0x7FFFFFFFFFFFFFFE#64, true⟩ }] ++
  [{ a := 0xFFFFFFFFFFFFFFFF#64, b := 0x8000000000000000#64,
     add := 0x7FFFFFFFFFFFFFFF#64, sub := 0x7FFFFFFFFFFFFFFF#64,
     addsat := ⟨0x8000000000000002#64, true⟩, subsat := ⟨0x7FFFFFFFFFFFFFFF#64, false⟩ }] ++
  [{ a := 0x4000000000000000#64, b := 0x4000000000000000#64,
     add := 0x8000000000000000#64, sub := 0x0000000000000000#64,
     addsat := ⟨0x7FFFFFFFFFFFFFFE#64, true⟩, subsat := ⟨0x0000000000000000#64, false⟩ }] ++
  [{ a := 0x4000000000000000#64, b := 0xC000000000000000#64,
     add := 0x0000000000000000#64, sub := 0x8000000000000000#64,
     addsat := ⟨0x0000000000000000#64, false⟩, subsat := ⟨0x7FFFFFFFFFFFFFFE#64, true⟩ }] ++
  [{ a := 0xC000000000000000#64, b := 0x4000000000000000#64,
     add := 0x0000000000000000#64, sub := 0x8000000000000000#64,
     addsat := ⟨0x0000000000000000#64, false⟩, subsat := ⟨0x8000000000000000#64, false⟩ }] ++
  [{ a := 0xC000000000000000#64, b := 0xC000000000000000#64,
     add := 0x8000000000000000#64, sub := 0x0000000000000000#64,
     addsat := ⟨0x8000000000000000#64, false⟩, subsat := ⟨0x0000000000000000#64, false⟩ }] ++
  [{ a := 0x123456789ABCDEF0#64, b := 0x123456789ABCDEF0#64,
     add := 0x2468ACF13579BDE0#64, sub := 0x0000000000000000#64,
     addsat := ⟨0x2468ACF13579BDE0#64, false⟩, subsat := ⟨0x0000000000000000#64, false⟩ }] ++
  [{ a := 0x8000000000000001#64, b := 0x0000000000000001#64,
     add := 0x8000000000000002#64, sub := 0x8000000000000000#64,
     addsat := ⟨0x8000000000000002#64, false⟩, subsat := ⟨0x8000000000000000#64, false⟩ }] ++
  [{ a := 0x0000000000000000#64, b := 0x7FFFFFFFFFFFFFFE#64,
     add := 0x7FFFFFFFFFFFFFFE#64, sub := 0x8000000000000002#64,
     addsat := ⟨0x7FFFFFFFFFFFFFFE#64, false⟩, subsat := ⟨0x8000000000000002#64, false⟩ }] ++
  [{ a := 0x0000000000000000#64, b := 0x8000000000000002#64,
     add := 0x8000000000000002#64, sub := 0x7FFFFFFFFFFFFFFE#64,
     addsat := ⟨0x8000000000000002#64, false⟩, subsat := ⟨0x7FFFFFFFFFFFFFFE#64, false⟩ }] ++
  [{ a := 0x0000000000000000#64, b := 0x7FFFFFFFFFFFFFFF#64,
     add := 0x7FFFFFFFFFFFFFFF#64, sub := 0x8000000000000001#64,
     addsat := ⟨0x7FFFFFFFFFFFFFFF#64, false⟩, subsat := ⟨0x8000000000000001#64, false⟩ }] ++
  [{ a := 0xFFFFFFFF00000000#64, b := 0x7FFFFFFFFFFFFFFF#64,
     add := 0x7FFFFFFEFFFFFFFF#64, sub := 0x7FFFFFFF00000001#64,
     addsat := ⟨0x7FFFFFFEFFFFFFFF#64, false⟩, subsat := ⟨0x8000000000000002#64, true⟩ }] ++
  [{ a := 0x0000000100000000#64, b := 0x0000000200000000#64,
     add := 0x0000000300000000#64, sub := 0xFFFFFFFF00000000#64,
     addsat := ⟨0x0000000300000000#64, false⟩, subsat := ⟨0xFFFFFFFF00000000#64, false⟩ }]

theorem test_vectors_add :
    ∀ r ∈ rowsA ++ rowsB, outputsOf (step (queuedWords 0b00#2 r.a r.b)) = some { y := r.add, sat := false } := by decide
theorem test_vectors_sub :
    ∀ r ∈ rowsA ++ rowsB, outputsOf (step (queuedWords 0b01#2 r.a r.b)) = some { y := r.sub, sat := false } := by decide
theorem test_vectors_addsat :
    ∀ r ∈ rowsA ++ rowsB, outputsOf (step (queuedWords 0b10#2 r.a r.b)) = some r.addsat := by decide
theorem test_vectors_subsat :
    ∀ r ∈ rowsA ++ rowsB, outputsOf (step (queuedWords 0b11#2 r.a r.b)) = some r.subsat := by decide

/-! ### The host's side -/

/-- P4, iteration 2: the loop's `acc` comes from the earlier result (R30). -/
theorem test_step_feeds_result :
    (stateOf (step (queued [{ op := 0b10#2, a := .result 1, b := .const .one }]
      [⟨0x7FFFFFFE00000000#64, false⟩, ⟨0x7FFFFFFF00000000#64, false⟩]))).map State.results =
    some [⟨0x7FFFFFFE00000000#64, false⟩, ⟨0x7FFFFFFF00000000#64, false⟩, ⟨0x7FFFFFFFFFFFFFFE#64, true⟩] := by decide

theorem test_step_from_reset : faultOf (step State.reset) = some .noTransaction := by decide
theorem test_command_without_transaction : faultOf (exec .sub State.reset) = some .noTransaction := by decide
theorem test_later_name_refused :
    refusalOf (step (queued [{ op := 0b00#2, a := .const .one, b := .result 0 }] [])) = some (.unresolvedName 0) := by decide
theorem test_word_runs_after_reset :
    (stateOf (step (State.reset.withFetchWord 8 0x3))).map State.inputs = some (some { op := 0b11#2, a := 0#64, b := 0#64 }) := by
  decide
/-- With a line queued, the transaction that stood unanswered on the ports gets no result (log entry 13). -/
theorem test_queued_line_overwrites_unanswered :
    (stateOf (step { presenting 0b00#2 1#64 1#64 with pending := [{ op := 0b01#2, a := .lit 5#64, b := .lit 3#64 }] })).map
      State.results = some [⟨2#64, false⟩] := by decide
theorem test_read_before_answer : (presenting 0b00#2 1#64 1#64).readAt 0 5 = .error .outputNoValue := by decide
theorem test_result_names :
    resultY [⟨7#64, true⟩] 0 = some 7#64 ∧ resultSat [⟨7#64, true⟩] 0 = some true ∧ resultY [⟨7#64, true⟩] 1 = none := by decide

/-! ### The text form (R41, R42; lines of 95_test_vectors.md P1 to P4) -/

theorem test_text_command :
    Asm.parseLine "t4 = ADDSAT t3, 0x4000_0000_0000_0000".toList =
      some (4, .core .addsat (.result 3) (.lit 0x4000000000000000#64)) := by decide
theorem test_text_mnemonic_ignores_case :
    Asm.parseLine "t3 = add MaxValue, One".toList = some (3, .core .add (.const .maxValue) (.const .one)) := by decide
theorem test_text_pseudo :
    (Asm.parseLine "t2 = NEGSAT NaN".toList).map (fun p => (p.1, p.2.expand)) =
      some (2, { op := 0b11#2, a := .const .zero, b := .const .nan }) := by decide
theorem test_text_refuses_own_name : Asm.parseProgram ["t0 = DBL t0".toList] = none := by decide

/-! ### The wire form in both orders (20_memory.md R27) -/

theorem test_wire_little :
    Wire.toBytes .little 0x0102030405060708#64 = [8#8, 7#8, 6#8, 5#8, 4#8, 3#8, 2#8, 1#8] := by decide
theorem test_wire_big :
    Wire.toBytes .big 0x0102030405060708#64 = [1#8, 2#8, 3#8, 4#8, 5#8, 6#8, 7#8, 8#8] := by decide

/-! ### Witnesses: concrete states and operands that meet the hypotheses of the statements, clause by clause -/

/-- A host that has read one result and queued a line that uses it. -/
def witness : State := queued [{ op := 0b00#2, a := .result 0, b := .const .one }] [⟨5#64, false⟩]

theorem witness_TableWords : decodeTableWord 8 3 = some .subsat := by decide
theorem witness_QueuedRecordIsAnswered : State.reset.pending = [] := by decide
theorem witness_RawValueWireRoundTrip : Wire.ofBytes .big [0#8, 0#8, 0#8, 0#8, 0#8, 0#8, 0#8, 1#8] = some 1#64 := by decide
theorem witness_NoOutputBeforeTransaction :
    State.reset.outputs = none ∧ OutputsCoherent State.reset ∧ State.reset.inputs = none := by decide
theorem witness_ReadValidFromLatencyOn :
    (State.drive ⟨1#64, false⟩ State.reset).outputs = some ⟨1#64, false⟩ ∧ (3 : Nat) ≤ 3 ∧ (2 : Nat) < 3 := by decide

/-- A presented transaction: Answers, EveryTransactionCompletes, SatExactlyOnSaturatingOverflow (op[1] = 0 and 1). -/
theorem witness_presented :
    (presenting 0b00#2 1#64 2#64).inputs = some { op := 0b00#2, a := 1#64, b := 2#64 } ∧ (0b00#2 : BitVec 2)[1] = false := by decide
theorem witness_presented_saturating :
    (outputsOf (exec (decode 0b10#2) (presenting 0b10#2 Constant.maxValue.word Constant.one.word))).map Output.sat = some true ∧
      (0b10#2 : BitVec 2)[1] = true := by decide

/-- Two commands that answer from the same inputs: LatencySameForAllCommands, CommandChangesOutputsOnly,
OutputsIndependentOfHistory (its second part). -/
theorem witness_commands_answer :
    (stateOf (exec .add (presenting 0b00#2 1#64 2#64))).isSome = true ∧
      (stateOf (exec .add { presenting 0b00#2 1#64 2#64 with results := [⟨0#64, true⟩] })).isSome = true ∧
      State.reset.inputs = none := by decide

theorem witness_sign_cases :
    (1#64 : Word)[63] = false ∧ (Constant.nan.word)[63] = true ∧ (2#64 : Word)[63] = false := by decide
theorem witness_overflow_tests :
    ovfAdd Constant.maxValue.word Constant.maxValue.word = true ∧ ovfSub Constant.zero.word Constant.nan.word = true := by decide
theorem witness_overflow_directions :
    2 ^ 63 - 1 < exactSum Constant.positiveInfinity.word 1#64 ∧ exactSum Constant.nan.word 0xFFFFFFFFFFFFFFFF#64 < -2 ^ 63 ∧
      2 ^ 63 - 1 < exactDiff Constant.zero.word Constant.nan.word ∧ exactDiff Constant.nan.word 1#64 < -2 ^ 63 := by decide
theorem witness_closed_form_corners :
    exactResult .addsat Constant.maxValue.word 1#64 = 2 ^ 63 - 1 ∧ exactResult .subsat Constant.minValue.word 1#64 = -2 ^ 63 + 1 ∧
      exactResult .addsat 0xC000000000000000#64 0xC000000000000000#64 = -2 ^ 63 ∧
      (respond .addsat Constant.nan.word Constant.nan.word).sat = true := by decide
theorem witness_sat_of_config :
    (respond .addsat 1#64 1#64).sat = false ∧ (respond .subsat Constant.zero.word Constant.nan.word).sat = true := by decide

/-- SentinelsAreOrdinaryWords, FixedPointExact: an operation on a sentinel that does not overflow, sums and differences. -/
theorem witness_no_overflow :
    overflows (exactResult .addsat Constant.maxValue.word 1#64) = false ∧ overflows (exactSum Constant.half.word Constant.half.word) = false ∧
      overflows (exactDiff Constant.one.word Constant.half.word) = false := by decide
theorem witness_not_nan : Constant.one.word ≠ Constant.nan.word := by decide

/-- PseudoInstructionResults, with v = NaN and v ≠ NaN. -/
theorem witness_pseudo :
    (Source.const .nan).resolve [] = .ok Constant.nan.word ∧ (Source.result 0).resolve [⟨5#64, false⟩] = .ok 5#64 ∧
      5#64 ≠ Constant.nan.word := by decide

/-- StepRunsDecodedCommand, EarlierResultReachesPort: both clauses of each. -/
theorem witness_step :
    witness.pending = { op := 0b00#2, a := .result 0, b := .const .one } :: [] ∧ witness.results[0]? = some ⟨5#64, false⟩ ∧
      (Source.const .one).resolve witness.results = .ok Constant.one.word ∧
      Line.resolve witness.results { op := 0b00#2, a := .result 0, b := .const .one } =
        .ok { op := 0b00#2, a := 5#64, b := Constant.one.word } := by decide
theorem witness_step_second_operand :
    (queued [{ op := 0b01#2, a := .const .one, b := .result 0 }] [⟨5#64, false⟩]).pending =
      { op := 0b01#2, a := .const .one, b := .result 0 } :: [] := by decide
theorem witness_step_unanswered :
    (presenting 0b01#2 1#64 2#64).pending = [] ∧ (presenting 0b01#2 1#64 2#64).outputs = none ∧
      (stateOf (step (presenting 0b01#2 1#64 2#64))).isSome = true := by decide

/-- TransactionIsAtomic, StepAddsOneResult, StepKeepsInvariant, InvariantStateProgresses, QueueRunsToItsEnd. -/
theorem witness_invariant : Inv witness ∧ witness.pending ≠ [] ∧ (stateOf (step witness)).isSome = true := by decide
theorem witness_queue_line : witness.pending[0]? = some { op := 0b00#2, a := .result 0, b := .const .one } := by decide
theorem witness_invariant_unanswered :
    Inv (presenting 0b11#2 1#64 2#64) ∧ (presenting 0b11#2 1#64 2#64).inputs.isSome = true ∧
      (presenting 0b11#2 1#64 2#64).outputs = none := by decide

/-- OutputsIndependentOfHistory, its first part: two states with different pasts present the same transaction. -/
theorem witness_two_histories :
    (stateOf (step (queuedWords 0b10#2 1#64 2#64))).map State.inputs =
      (stateOf (step (queued [{ op := 0b10#2, a := .lit 1#64, b := .lit 2#64 }] [⟨9#64, true⟩]))).map State.inputs ∧
      (stateOf (step (queuedWords 0b10#2 1#64 2#64))).isSome = true := by decide

theorem witness_stops :
    faultOf (step State.reset) = some .noTransaction ∧
      refusalOf (step (queued [{ op := 0#2, a := .result 3, b := .result 4 }] [])) = some (.unresolvedName 3) := by decide
theorem witness_accepted_text :
    (Asm.parseProgram ["t0 = MOV Half".toList, "t1 = DBL t0".toList]).isSome = true ∧ State.reset.pending = [] ∧
      State.reset.results = [] := by decide

end Sys2Proof.Tests
end

section
/-! Proofs of the statements on the word, the fixed-point reading and the configuration (00_scope.md R8, R9, R11). -/

namespace Sys2Proof

/-! ### The readings of a word (R9) -/

theorem u64_nonneg (v : Word) : 0 ≤ u64 v := Int.natCast_nonneg _

theorem u64_lt (v : Word) : u64 v < 2 ^ 64 := Int.ofNat_lt.mpr v.isLt

/-- R9's formula with the factor `v[63]` as a case distinction. -/
theorem s64_eq_u64_sub_ite (v : Word) : s64 v = u64 v - (if v[63] then 2 ^ 64 else 0) := by
  unfold s64
  split <;> simp

/-- A word is determined by its unsigned reading, so `enc64 n` is the only word that reads n modulo 2^64. -/
theorem u64_eq_emod_iff (n : Int) (v : Word) : u64 v = n % 2 ^ 64 ↔ v = enc64 n := by
  constructor
  · intro h
    have hu : u64 v = u64 (enc64 n) := h.trans (u64_enc64 n).symm
    calc v = enc64 (u64 v) := (enc64_u64 v).symm
      _ = enc64 (u64 (enc64 n)) := by rw [hu]
      _ = enc64 n := enc64_u64 _
  · rintro rfl
    exact u64_enc64 n

/-- Settles O16: the ranges are those of the two readings, and a word is determined by either reading. -/
theorem wordReadings : Obligations.WordReadings :=
  ⟨fun v => ⟨u64_nonneg v, u64_lt v, s64_lower v, s64_upper v, s64_eq_u64_sub_ite v⟩,
    u64_eq_emod_iff, fun v => ⟨enc64_u64 v, enc64_s64 v⟩⟩

namespace Machine

/-! ### The two parts of a fixed-point word (R11) -/

/-- The fractional part is the remainder of the signed reading by 2^32. -/
theorem fracPart_eq_emod (v : Word) : fracPart v = s64 v % 2 ^ 32 := by
  rw [s64_eq_toInt, BitVec.toInt_eq_toNat_cond, fracPart, BitVec.extractLsb'_toNat, Nat.shiftRight_zero]
  split <;> omega

/-- The integer part is the signed reading divided by 2^32 and rounded down. -/
theorem intPart_eq_ediv (v : Word) : intPart v = s64 v / 2 ^ 32 := by
  have hv := v.isLt
  rw [s64_eq_toInt, intPart, BitVec.toInt_eq_toNat_cond, BitVec.toInt_eq_toNat_cond,
    BitVec.extractLsb'_toNat, Nat.shiftRight_eq_div_pow]
  split <;> split <;> omega

/-- Settles O32: the parts are quotient and remainder of the signed reading by 2^32. -/
theorem semanticValueParts : Obligations.SemanticValueParts := by
  intro v
  rw [intPart_eq_ediv, fracPart_eq_emod]
  exact ⟨rfl, (Int.ediv_mul_add_emod (s64 v) (2 ^ 32)).symm, Int.emod_nonneg _ (by decide),
    Int.emod_lt_of_pos _ (by decide)⟩

/-! ### The only readers of the configuration (R8, R59) -/

/-- An overflowing sum has the sign of `a`, so the saturation value goes by the sign of the exact sum (R48). -/
theorem satValue_of_ovfAdd (cfg : Config) {a b : Word} (h : ovfAdd a b = true) :
    satValue cfg a = if exactSum a b < 0 then cfg.satMin else cfg.satMax := by
  have hsign : s64 a < 0 ↔ exactSum a b < 0 := by
    rw [ovfAdd_eq_overflows, overflows_iff] at h
    have hb := s64_lower b
    have hb' := s64_upper b
    unfold exactSum at *
    omega
  simp only [satValue_eq_ite, hsign]

/-- An overflowing difference has the sign of `a`, so the saturation value goes by the sign of the exact difference
(R48). -/
theorem satValue_of_ovfSub (cfg : Config) {a b : Word} (h : ovfSub a b = true) :
    satValue cfg a = if exactDiff a b < 0 then cfg.satMin else cfg.satMax := by
  have hsign : s64 a < 0 ↔ exactDiff a b < 0 := by
    rw [ovfSub_eq_overflows, overflows_iff] at h
    have hb := s64_lower b
    have hb' := s64_upper b
    unfold exactDiff at *
    omega
  simp only [satValue_eq_ite, hsign]

/-- Whether a command raises sat does not depend on the configuration. -/
theorem respondWith_sat (cfg : Config) (i : Instr) (a b : Word) :
    (respondWith cfg i a b).sat = (respond i a b).sat := by
  cases i with
  | add | sub => rfl
  | addsat | subsat => exact (saturate_sat ..).trans (saturate_sat ..).symm

/-- Without overflow the outputs of a saturating command are the wrapped result under every configuration. -/
theorem saturate_of_sat_false (cfg cfg' : Config) {v : Bool} {a r : Word} (h : (saturate cfg' v a r).sat = false) :
    saturate cfg v a r = saturate cfg' v a r := by
  rw [saturate_sat] at h
  subst h
  rfl

/-- An unsaturated answer is the same under every configuration. -/
theorem respondWith_of_sat_false (cfg : Config) {i : Instr} {a b : Word} (h : (respond i a b).sat = false) :
    respondWith cfg i a b = respond i a b := by
  cases i with
  | add | sub => rfl
  | addsat | subsat => exact saturate_of_sat_false cfg config h

/-- A saturated answer is the configuration's constant on the side of the exact result. -/
theorem respondWith_y_of_sat (cfg : Config) {i : Instr} {a b : Word} (h : (respond i a b).sat = true) :
    (respondWith cfg i a b).y = if exactResult i a b < 0 then cfg.satMin else cfg.satMax := by
  cases i with
  | add | sub => cases h
  | addsat =>
    have hov : ovfAdd a b = true := (saturate_sat ..).symm.trans h
    exact (saturate_y ..).trans ((if_pos hov).trans (satValue_of_ovfAdd cfg hov))
  | subsat =>
    have hov : ovfSub a b = true := (saturate_sat ..).symm.trans h
    exact (saturate_y ..).trans ((if_pos hov).trans (satValue_of_ovfSub cfg hov))

/-- Settles O25: sat is read off the operands alone, and the constants stand only in a saturated `y`. -/
theorem onlySaturationReadsConfig : Obligations.OnlySaturationReadsConfig :=
  fun cfg i a b => ⟨respondWith_sat cfg i a b, respondWith_of_sat_false cfg, respondWith_y_of_sat cfg⟩

end Machine

end Sys2Proof
end

section
/-! Proofs of the statements on the ports, the sentinels, the step and its invariant (10_state.md). -/

namespace Sys2Proof

/-! ### What a record, a transaction and an operand stand for (R13, R40, R41) -/

theorem decode_isSat (op : BitVec 2) : (decode op).isSat = op[1] := by
  unfold decode
  cases op[1] <;> cases op[0] <;> rfl

/-! The three fields of a TX130 record. -/

theorem Transaction.toRecord_a (t : Transaction) : t.toRecord.extractLsb' 0 64 = t.a := by
  ext i hi
  simp [Transaction.toRecord, hi, show i < 128 by omega, show i < 130 by omega]

theorem Transaction.toRecord_b (t : Transaction) : t.toRecord.extractLsb' 64 64 = t.b := by
  ext i hi
  simp [Transaction.toRecord, hi, show 64 + i < 128 by omega, show 64 + i < 130 by omega]

theorem Transaction.toRecord_op (t : Transaction) : t.toRecord.extractLsb' 128 2 = t.op := by
  ext i hi
  simp [Transaction.toRecord, hi, show 128 + i < 130 by omega, show 64 ≤ 128 + i - 64 by omega,
    BitVec.getLsbD_of_ge t.a (128 + i) (by omega)]

theorem Transaction.ofRecord_toRecord (t : Transaction) : Transaction.ofRecord t.toRecord = t := by
  rw [Transaction.ofRecord, toRecord_a, toRecord_b, toRecord_op]

/-- A line of literals stands for its transaction, whatever results exist. -/
theorem Line.resolve_ofTransaction (rs : List Machine.Output) (t : Transaction) :
    (Line.ofTransaction t).resolve rs = .ok t :=
  Line.resolve_eq_ok.mpr ⟨rfl, rfl, rfl⟩

/-- The only operand that does not resolve is the name of a result that does not exist. -/
theorem Source.resolve_eq_error {rs : List Machine.Output} {src : Source} {k : Nat} :
    src.resolve rs = .error k ↔ src = .result k ∧ rs.length ≤ k := by
  cases src with
  | lit v => simp [Source.resolve]
  | const c => simp [Source.resolve]
  | result j =>
    by_cases hj : j < rs.length
    · simp [Source.resolve, Machine.resultY, hj]
      omega
    · simp [Source.resolve, Machine.resultY, hj]
      omega

/-- A line fails to resolve at the name, in one of its operands, of a result that does not exist. -/
theorem Line.exists_result_of_resolve_eq_error {rs : List Machine.Output} {l : Line} {k : Nat}
    (h : l.resolve rs = .error k) : (l.a = .result k ∨ l.b = .result k) ∧ rs.length ≤ k := by
  unfold Line.resolve at h
  split at h
  · next ha =>
    cases h
    obtain ⟨hr, hk⟩ := Source.resolve_eq_error.mp ha
    exact ⟨.inl hr, hk⟩
  · split at h
    · next hb =>
      cases h
      obtain ⟨hr, hk⟩ := Source.resolve_eq_error.mp hb
      exact ⟨.inr hr, hk⟩
    · cases h

namespace Machine

@[simp] theorem State.enqueueRecords_pending (rs : List (BitVec 130)) (s : State) :
    (s.enqueueRecords rs).pending = s.pending ++ rs.map fun r => Line.ofTransaction (Transaction.ofRecord r) := rfl

/-! ### The four ways the host goes on (R13, R15, R41), and the command that then runs (R39) -/

theorem State.unanswered_iff {s : State} : s.unanswered = true ↔ (∃ x, s.inputs = some x) ∧ s.outputs = none := by
  simp [State.unanswered, Option.isSome_iff_exists]

theorem presentNext_queued {s : State} {l : Line} {rest : List Line} {x : Transaction} (hp : s.pending = l :: rest)
    (hx : l.resolve s.results = .ok x) :
    presentNext s = .next { inputs := some x, outputs := none, pending := rest, results := s.results } := by
  simp only [presentNext, hp, hx]
  rfl

theorem presentNext_unresolved {s : State} {l : Line} {rest : List Line} {k : Nat} (hp : s.pending = l :: rest)
    (hk : l.resolve s.results = .error k) : presentNext s = .refused (.unresolvedName k) := by
  simp only [presentNext, hp, hk]

theorem presentNext_unanswered {s : State} {x : Transaction} (hp : s.pending = []) (hi : s.inputs = some x)
    (ho : s.outputs = none) : presentNext s = .next s := by
  have hu : s.unanswered = true := State.unanswered_iff.mpr ⟨⟨x, hi⟩, ho⟩
  simp only [presentNext, hp, hu, if_true]

theorem presentNext_idle {s : State} (hp : s.pending = []) (hs : s.inputs = none ∨ s.outputs ≠ none) :
    presentNext s = .fault .noTransaction := by
  have hu : ¬ s.unanswered = true := by
    rw [State.unanswered_iff]
    rintro ⟨⟨x, hi⟩, ho⟩
    obtain hi' | ho' := hs
    · cases hi.symm.trans hi'
    · exact ho' ho
  simp only [presentNext, hp, if_neg hu]

theorem runPresented_eq_exec {s : State} {x : Transaction} (h : s.inputs = some x) :
    runPresented s = exec (decode x.op) s := by
  simp only [runPresented, presentedOp, h, Option.map_some]

/-- With a transaction presented, every command answers. -/
theorem exec_presented (i : Instr) {s : State} {x : Transaction} (h : s.inputs = some x) :
    exec i s = .next (s.drive (respond i x.a x.b)) :=
  exec_eq_next.mpr ⟨x, h, rfl⟩

/-! ### What stops a step (R25, R41, R60) -/

/-- With nothing queued, the transaction that stands unanswered on the ports completes. -/
theorem step_unanswered {s : State} {x : Transaction} (hp : s.pending = []) (hi : s.inputs = some x)
    (ho : s.outputs = none) :
    step s = .next { s with outputs := some (answer x), results := s.results ++ [answer x] } := by
  rw [step, presentNext_unanswered hp hi ho, andThen_next, finish_presented hi]

theorem step_idle {s : State} (hp : s.pending = []) (hs : s.inputs = none ∨ s.outputs ≠ none) :
    step s = .fault .noTransaction := by
  rw [step, presentNext_idle hp hs, andThen_fault]

theorem step_unresolved {s : State} {l : Line} {rest : List Line} {k : Nat} (hp : s.pending = l :: rest)
    (hk : l.resolve s.results = .error k) : step s = .refused (.unresolvedName k) := by
  rw [step, presentNext_unresolved hp hk, andThen_refused]

/-- What the host finds before a step: nothing to run, an unanswered transaction, a line that resolves, or a line that
names a result that does not exist; each fixes the outcome. -/
theorem step_outcomes (s : State) :
    (s.pending = [] ∧ (s.inputs = none ∨ s.outputs ≠ none) ∧ step s = .fault .noTransaction) ∨
    (∃ l rest k, s.pending = l :: rest ∧ l.resolve s.results = .error k ∧ step s = .refused (.unresolvedName k)) ∨
    ∃ t, step s = .next t := by
  cases hp : s.pending with
  | nil =>
    by_cases hs : s.inputs = none ∨ s.outputs ≠ none
    · exact .inl ⟨rfl, hs, step_idle hp hs⟩
    · rw [not_or, not_not, ← ne_eq, Option.ne_none_iff_exists'] at hs
      obtain ⟨⟨x, hi⟩, ho⟩ := hs
      exact .inr (.inr ⟨_, step_unanswered hp hi ho⟩)
  | cons l rest =>
    cases hr : l.resolve s.results with
    | error k => exact .inr (.inl ⟨l, rest, k, rfl, hr, step_unresolved hp hr⟩)
    | ok x => exact .inr (.inr ⟨_, step_queued hp hr⟩)

theorem step_eq_fault {s : State} {f : Fault} :
    step s = .fault f ↔ f = .noTransaction ∧ s.pending = [] ∧ (s.inputs = none ∨ s.outputs ≠ none) := by
  constructor
  · intro h
    obtain ⟨hp, hs, hf⟩ | ⟨l, rest, k, -, -, hr⟩ | ⟨t, ht⟩ := step_outcomes s
    · cases hf.symm.trans h
      exact ⟨rfl, hp, hs⟩
    · cases hr.symm.trans h
    · cases ht.symm.trans h
  · rintro ⟨rfl, hp, hs⟩
    exact step_idle hp hs

theorem step_eq_refused {s : State} {r : Refusal} :
    step s = .refused r ↔
      ∃ l rest k, s.pending = l :: rest ∧ l.resolve s.results = .error k ∧ r = .unresolvedName k := by
  constructor
  · intro h
    obtain ⟨-, -, hf⟩ | ⟨l, rest, k, hp, hk, hr⟩ | ⟨t, ht⟩ := step_outcomes s
    · cases hf.symm.trans h
    · cases hr.symm.trans h
      exact ⟨l, rest, k, hp, hk, rfl⟩
    · cases ht.symm.trans h
  · rintro ⟨l, rest, k, hp, hk, rfl⟩
    exact step_unresolved hp hk

/-! ### What every step keeps (R13, R22, R25) -/

/-- After a step the outputs are the answer of the transaction on the inputs, whatever they were before. -/
theorem step_outputs_eq {s t : State} (h : step s = .next t) : t.outputs = t.inputs.map answer := by
  obtain ⟨x, hi, ho, -, -⟩ := step_summary h
  rw [hi, ho, Option.map_some]

/-- The one result a step adds is an answer, and an answer with sat = 1 is a saturation value. -/
theorem step_resultsSaturate {s t : State} (hs : ResultsSaturate s) (h : step s = .next t) : ResultsSaturate t := by
  obtain ⟨x, -, -, -, hr⟩ := step_summary h
  intro o ho
  rw [hr, List.mem_append, List.mem_singleton] at ho
  obtain hold | rfl := ho
  · exact hs o hold
  · exact respond_sat_y _ _ _

/-- Settles O42: each part of the invariant is kept by itself. -/
theorem stepKeepsInvariant : Obligations.StepKeepsInvariant := by
  rintro s t ⟨-, hres, hpend⟩ h
  exact ⟨.inr (step_outputs_eq h), step_resultsSaturate hres h, step_pendingResolves hpend h⟩

/-- Settles O41: at reset there is no output, no result and no queued line. -/
theorem resetSatisfiesInvariant : Obligations.ResetSatisfiesInvariant :=
  ⟨.inl State.reset_outputs, fun _ ho => absurd ho List.not_mem_nil, rfl⟩

/-- Settles O5: a record is the transaction it was made from, and the line of literals it is queued as resolves to it. -/
theorem queuedRecordIsAnswered : Obligations.QueuedRecordIsAnswered := by
  intro s x rs hp
  have hq : (s.enqueueRecords (x.toRecord :: rs)).pending =
      Line.ofTransaction x :: (s.enqueueRecords rs).pending := by
    simp [hp, Transaction.ofRecord_toRecord]
  exact ⟨_, step_queued hq (Line.resolve_ofTransaction _ x), rfl, rfl, rfl, rfl⟩

/-- Settles O38: a fault is an idle host, and a refusal is a line that does not resolve. -/
theorem stepStopsOnlyWithoutTransaction : Obligations.StepStopsOnlyWithoutTransaction := by
  refine fun s => ⟨fun f => step_eq_fault, fun r h => ?_⟩
  obtain ⟨l, rest, k, hp, hk, hr⟩ := step_eq_refused.mp h
  obtain ⟨hname, hlen⟩ := Line.exists_result_of_resolve_eq_error hk
  exact ⟨l, rest, k, hp, hname, hlen, hr⟩

/-- Settles O39: after a step, and after a command, the outputs are a function of the inputs alone. -/
theorem outputsIndependentOfHistory : Obligations.OutputsIndependentOfHistory := by
  constructor
  · intro s s' t t' h h' hin
    rw [step_outputs_eq h, step_outputs_eq h', hin]
  · intro i s s' t t' h h' hin
    obtain ⟨x, hx, rfl⟩ := exec_eq_next.mp h
    obtain ⟨x', hx', rfl⟩ := exec_eq_next.mp h'
    cases hx.symm.trans (hin.trans hx')
    rfl

/-- Settles O34: presenting is the host's only part in a step, and the command is the decoded `op` of what it presents. -/
theorem stepRunsDecodedCommand : Obligations.StepRunsDecodedCommand := by
  constructor
  · intro s l rest x hp hx
    obtain ⟨hop, -, -⟩ := Line.resolve_eq_ok.mp hx
    refine ⟨hop.symm, ?_⟩
    rw [step, presentNext_queued hp hx, andThen_next, runPresented_eq_exec rfl, hop]
  · intro s x hp hi ho
    rw [step, presentNext_unanswered hp hi ho, andThen_next, runPresented_eq_exec hi]

/-- Settles O15: a command that answers has driven the outputs and done nothing else. -/
theorem commandChangesOutputsOnly : Obligations.CommandChangesOutputsOnly := by
  refine fun i s => ⟨fun t h => ?_, fun hi => ?_⟩
  · obtain ⟨x, -, rfl⟩ := exec_eq_next.mp h
    exact ⟨rfl, rfl, rfl, rfl⟩
  · rw [exec_eq_transact, transact, hi]

/-! ### Reads before any answer (R25, R75) -/

/-- Outputs without a value fault every read, for every latency and waiting time. -/
theorem readAt_of_outputs_eq_none {s : State} (n k : Nat) (h : s.outputs = none) :
    s.readAt n k = .error .outputNoValue := by
  rw [State.readAt, State.settledOutputs, h]

/-- Coherent outputs carry no value where no transaction stands on the inputs. -/
theorem OutputsCoherent.outputs_eq_none {s : State} (hs : OutputsCoherent s) (hi : s.inputs = none) :
    s.outputs = none := by
  obtain h | h := hs
  · exact h
  · rw [h, hi, Option.map_none]

/-- Settles O7: in each of the states named the outputs carry no value, and at reset there is nothing to run. -/
theorem noOutputBeforeTransaction : Obligations.NoOutputBeforeTransaction := by
  have hread (s : State) (n k : Nat) (h : s.outputs = none) :
      s.readAt n k = .error .outputNoValue ∧ s.readOutputs k = .error .outputNoValue :=
    ⟨readAt_of_outputs_eq_none n k h, readAt_of_outputs_eq_none _ k h⟩
  exact ⟨hread, fun s n k hs hi => hread s n k (hs.outputs_eq_none hi), rfl, rfl,
    step_idle State.reset_pending (.inl State.reset_inputs)⟩

/-! ### One rule for every word (R20, R22) -/

/-- A command raises sat exactly when it is a saturating one and its exact result overflows. -/
theorem respond_sat (i : Instr) (a b : Word) :
    (respond i a b).sat = (i.isSat && overflows (exactResult i a b)) := by
  cases i with
  | add | sub => rfl
  | addsat => exact (saturate_sat ..).trans (ovfAdd_eq_overflows a b)
  | subsat => exact (saturate_sat ..).trans (ovfSub_eq_overflows a b)

theorem respond_sat_iff {i : Instr} {a b : Word} :
    (respond i a b).sat = true ↔ i.isSat = true ∧ overflows (exactResult i a b) = true := by
  rw [respond_sat, Bool.and_eq_true]

/-- With sat = 0 a command answers the wrapped exact result. -/
theorem respond_y_of_sat_false {i : Instr} {a b : Word} (h : (respond i a b).sat = false) :
    (respond i a b).y = enc64 (exactResult i a b) := by
  cases i with
  | add | sub => rfl
  | addsat | subsat =>
    have hov := (saturate_sat ..).symm.trans h
    exact (saturate_y ..).trans (if_neg (Bool.eq_false_iff.mp hov))

/-- The answer of every command on every pair of words: the saturation value on the side of the exact result, or the
wrapped exact result. -/
theorem respond_eq_ite (i : Instr) (a b : Word) :
    respond i a b =
      if i.isSat = true ∧ overflows (exactResult i a b) = true
        then { y := if exactResult i a b < 0 then config.satMin else config.satMax, sat := true }
        else { y := enc64 (exactResult i a b), sat := false } := by
  split
  · next h =>
    have hsat := respond_sat_iff.mpr h
    exact congrArg₂ Output.mk (respondWith_y_of_sat config hsat) hsat
  · next h =>
    have hsat := Bool.eq_false_iff.mpr (mt respond_sat_iff.mp h)
    exact congrArg₂ Output.mk (respond_y_of_sat_false hsat) hsat

/-- Settles O24: the answer depends on the operands alone, and its sat is `op[1]` with the overflow of the exact result. -/
theorem satExactlyOnSaturatingOverflow : Obligations.SatExactlyOnSaturatingOverflow := by
  intro s x hi
  have hsat : (answer x).sat = (x.op[1] && overflows (exactResult (decode x.op) x.a x.b)) :=
    (respond_sat ..).trans (by rw [decode_isSat])
  refine ⟨answer x, exec_presented _ hi, ?_, respond_sat_y _ _ _, ?_, fun old => exec_presented _ hi⟩
  · rw [hsat, Bool.and_eq_true]
  · intro hop
    rw [hsat, hop, Bool.false_and]

/-! ### The sentinels (R19, R20) -/

/-- One unit on the side of zero that a word lies on: from `v - unitToward v` it leads to `v` without overflow. -/
def unitToward (v : Word) : Word := if v[63] then -1 else 1

theorem unitToward_ne_zero (v : Word) : unitToward v ≠ 0#64 := by
  unfold unitToward
  split <;> decide

theorem neg_unitToward_ne_zero (v : Word) : -unitToward v ≠ 0#64 := by
  unfold unitToward
  split <;> decide

/-- Every named constant is the unsaturated sum, and the unsaturated difference, of nonzero operands. -/
theorem constant_eq_unsaturated (c : Constant) :
    c.word - unitToward c.word ≠ 0#64 ∧
    respond .addsat (c.word - unitToward c.word) (unitToward c.word) = { y := c.word, sat := false } ∧
    respond .subsat (c.word - unitToward c.word) (-unitToward c.word) = { y := c.word, sat := false } := by
  cases c <;> decide

/-- Settles O27: the one rule of all commands holds for every word; the examples are its values. -/
theorem sentinelsAreOrdinaryWords : Obligations.SentinelsAreOrdinaryWords := by
  refine ⟨fun i a b => answers_iff.mpr (respond_eq_ite i a b), answers_iff.mpr (by decide), answers_iff.mpr (by decide),
    answers_iff.mpr (by decide), answers_iff.mpr (by decide), fun i a b h => ?_, fun c => ?_⟩
  · obtain ⟨hi, hov⟩ := respond_sat_iff.mp h
    exact ⟨hi, hov, respond_sat_y i a b h⟩
  · obtain ⟨hne, hadd, hsub⟩ := constant_eq_unsaturated c
    exact ⟨⟨_, _, hne, unitToward_ne_zero _, hadd⟩, ⟨_, _, hne, neg_unitToward_ne_zero _, hsub⟩⟩

theorem s64_positiveInfinity : s64 Constant.positiveInfinity.word = 2 ^ 63 - 1 := by decide
theorem s64_maxValue : s64 Constant.maxValue.word = 2 ^ 63 - 2 := by decide
theorem s64_minValue : s64 Constant.minValue.word = -2 ^ 63 + 2 := by decide
theorem s64_negativeInfinity : s64 Constant.negativeInfinity.word = -2 ^ 63 + 1 := by decide
theorem s64_nan : s64 Constant.nan.word = -2 ^ 63 := by decide

/-- The semantic value of a word whose signed reading is known. -/
theorem value_of_s64 {v : Word} {n : Int} (h : s64 v = n) : value v = (n : Rat) / 2 ^ 32 := by
  rw [value, h, Config.fracBits]

/-- Settles O26: the semantic values are the signed readings divided by 2^32. -/
theorem sentinelTable : Obligations.SentinelTable := by
  refine ⟨s64_positiveInfinity, rfl, s64_maxValue, rfl, rfl, s64_minValue, rfl, rfl, s64_negativeInfinity, rfl,
    s64_nan, rfl, ?_, ?_, ?_, ?_, ?_, ?_⟩
  · rw [s64_minValue, s64_maxValue]; decide
  · rw [value_of_s64 s64_positiveInfinity]; norm_num
  · rw [value_of_s64 s64_maxValue]; norm_num
  · rw [value_of_s64 s64_minValue]; norm_num
  · rw [value_of_s64 s64_negativeInfinity]; norm_num
  · rw [value_of_s64 s64_nan]; norm_num

end Machine

end Sys2Proof
end

section
/-! Proofs of the statements on the wire form, the host's queue and the results it feeds back (20_memory.md). -/

namespace Sys2Proof

namespace Wire

/-! ### A raw value and its eight bytes (R27) -/

@[simp] theorem lowBytes_length (n : Nat) (v : Word) : (lowBytes n v).length = n := by
  induction n generalizing v with
  | zero => rfl
  | succ n ih => exact congrArg (· + 1) (ih _)

@[simp] theorem toBytes_length (order : ByteOrder) (v : Word) : (toBytes order v).length = 8 := by
  cases order with
  | little => exact lowBytes_length 8 v
  | big => exact List.length_reverse.trans (lowBytes_length 8 v)

/-- The bytes read back have no bit above the last byte. -/
theorem getLsbD_ofLowBytes_of_ge {bs : List Byte} {i : Nat} (hi : 8 * bs.length ≤ i) :
    (ofLowBytes bs).getLsbD i = false := by
  induction bs generalizing i with
  | nil => exact BitVec.getLsbD_zero
  | cons x xs ih =>
    rw [List.length_cons] at hi
    simp [ofLowBytes, ih (i := i - 8) (by omega), BitVec.getLsbD_of_ge x i (by omega)]

/-- The low byte of a word read back is the first byte. -/
theorem extractLsb'_ofLowBytes_cons (x : Byte) (xs : List Byte) : (ofLowBytes (x :: xs)).extractLsb' 0 8 = x := by
  ext i hi
  simp [ofLowBytes, hi, show i < 64 by omega]

/-- The rest of a word read back is that of the other bytes, as long as none is shifted out at the top. -/
theorem ofLowBytes_cons_ushiftRight (x : Byte) {xs : List Byte} (h : xs.length < 8) :
    ofLowBytes (x :: xs) >>> 8 = ofLowBytes xs := by
  ext i hi
  by_cases hx : 8 + i < 64
  · simp [ofLowBytes, hx]
  · have hlow : (ofLowBytes xs).getLsbD i = false := getLsbD_ofLowBytes_of_ge (by omega)
    rw [BitVec.getLsbD_eq_getElem hi] at hlow
    simp [BitVec.getLsbD_of_ge _ (8 + i) (Nat.le_of_not_lt hx), hlow]

/-- Up to eight bytes are the low bytes of the word they read back as. -/
theorem lowBytes_ofLowBytes {bs : List Byte} (h : bs.length ≤ 8) : lowBytes bs.length (ofLowBytes bs) = bs := by
  induction bs with
  | nil => rfl
  | cons x xs ih =>
    have hxs : xs.length < 8 := h
    rw [List.length_cons, lowBytes, extractLsb'_ofLowBytes_cons, ofLowBytes_cons_ushiftRight x hxs, ih hxs.le]

/-- A word is its low byte under the bits above it. -/
theorem lowByte_join (v : Word) : (v >>> 8) <<< 8 ||| (v.extractLsb' 0 8).setWidth 64 = v := by
  ext i hi
  by_cases hlow : i < 8
  · simp [hi, hlow]
  · simp [hi, hlow, Nat.add_sub_cancel' (Nat.le_of_not_lt hlow)]

/-- A word that fits in `n` bytes is read back from its `n` low bytes. -/
theorem ofLowBytes_lowBytes {n : Nat} {v : Word} (hv : v.toNat < 2 ^ (8 * n)) : ofLowBytes (lowBytes n v) = v := by
  induction n generalizing v with
  | zero => exact (BitVec.eq_of_toNat_eq (Nat.lt_one_iff.mp hv)).symm
  | succ n ih =>
    have hrest : (v >>> 8).toNat < 2 ^ (8 * n) := by
      rw [BitVec.toNat_ushiftRight, Nat.shiftRight_eq_div_pow]
      rw [Nat.mul_succ, Nat.pow_add] at hv
      exact Nat.div_lt_of_lt_mul (Nat.mul_comm .. ▸ hv)
    rw [lowBytes, ofLowBytes, ih hrest, lowByte_join]

/-- The eight low bytes of a word are the only eight bytes that read back as it. -/
theorem eq_lowBytes_iff {bs : List Byte} {v : Word} :
    bs = lowBytes 8 v ↔ bs.length = 8 ∧ ofLowBytes bs = v := by
  constructor
  · rintro rfl
    exact ⟨lowBytes_length 8 v, ofLowBytes_lowBytes v.isLt⟩
  · rintro ⟨hlen, rfl⟩
    rw [← hlen, lowBytes_ofLowBytes hlen.le]

/-- In either order, a word is read back from its own bytes and from no others. -/
theorem ofBytes_eq_some {order : ByteOrder} {bs : List Byte} {v : Word} :
    ofBytes order bs = some v ↔ bs = toBytes order v := by
  cases order with
  | little => simpa [ofBytes, toBytes] using eq_lowBytes_iff.symm
  | big => simpa [ofBytes, toBytes, List.reverse_eq_iff] using (eq_lowBytes_iff (bs := bs.reverse)).symm

/-- Byte `k` of the low bytes is the field of eight bits from bit `8 * k` on. -/
theorem getElem?_lowBytes {n k : Nat} (v : Word) (hk : k < n) :
    (lowBytes n v)[k]? = some (v.extractLsb' (8 * k) 8) := by
  induction n generalizing v k with
  | zero => exact absurd hk (Nat.not_lt_zero k)
  | succ n ih =>
    cases k with
    | zero => rfl
    | succ k =>
      rw [lowBytes, List.getElem?_cons_succ, ih _ (Nat.lt_of_succ_lt_succ hk)]
      congr 1
      ext i hi
      simp [Nat.mul_succ, Nat.add_comm, Nat.add_left_comm]

/-- Settles O6: reading back inverts writing on both sides, and the first and the last low byte are the two ends. -/
theorem rawValueWireRoundTrip : Obligations.RawValueWireRoundTrip := by
  refine fun order v => ⟨toBytes_length order v, ofBytes_eq_some.mpr rfl, fun bs => ofBytes_eq_some.mp, ?_, ?_⟩
  · rw [toBytes, List.head?_eq_getElem?, getElem?_lowBytes v (by decide)]
  · rw [toBytes, List.head?_reverse, List.getLast?_eq_getElem?, lowBytes_length, getElem?_lowBytes v (by decide)]

end Wire

/-- An operand `tK` resolves to exactly the earlier `y`. -/
theorem Source.resolve_result {rs : List Machine.Output} {k : Nat} {o : Machine.Output} (h : rs[k]? = some o) :
    (Source.result k).resolve rs = .ok o.y := by
  simp [Source.resolve, Machine.resultY, h]

namespace Machine

/-! ### One transaction a step (R29, R30) -/

/-- A read from the latency on answers what stands on the outputs. -/
theorem readAt_of_le {s : State} {o : Output} {n k : Nat} (ho : s.outputs = some o) (h : n ≤ k) :
    s.readAt n k = .ok o := by
  rw [State.readAt, State.settledOutputs_ok.mpr ho]
  exact if_neg (Nat.not_lt.mpr h)

/-- Driving the outputs with what already stands on them changes nothing. -/
theorem State.drive_eq_self {s : State} {o : Output} (ho : s.outputs = some o) : s.drive o = s := by
  rw [State.drive, ← ho]

/-- Settles O36: the answer on the outputs is read as it is and is what the command drives again. -/
theorem transactionIsAtomic : Obligations.TransactionIsAtomic := by
  intro s t h
  obtain ⟨x, hi, ho, -, -⟩ := step_summary h
  refine ⟨x, hi, ho, fun n k => readAt_of_le ho, ?_⟩
  calc exec (decode x.op) t = .next (t.drive (answer x)) := exec_presented _ hi
    _ = .next t := by rw [State.drive_eq_self ho]

/-- Settles O37: the one result appended is the answer on the outputs. -/
theorem stepAddsOneResult : Obligations.StepAddsOneResult := by
  intro s t h
  obtain ⟨x, -, ho, hp, hr⟩ := step_summary h
  refine ⟨hp, ?_, ?_, fun k hk => ?_⟩
  · rw [hr, List.length_append, List.length_singleton]
  · rw [hr, ho, List.getElem?_concat_length]
  · rw [hr, List.getElem?_append_left hk]

/-- A queued line whose two operands resolve reaches the ports and is answered. -/
theorem step_operands {s : State} {op : BitVec 2} {a b : Source} {va vb : Word} {rest : List Line}
    (hp : s.pending = { op := op, a := a, b := b } :: rest) (ha : a.resolve s.results = .ok va)
    (hb : b.resolve s.results = .ok vb) :
    ∃ t, step s = .next t ∧ t.inputs = some { op := op, a := va, b := vb } ∧
      t.outputs = some (respond (decode op) va vb) :=
  ⟨_, step_queued hp (Line.resolve_eq_ok.mpr ⟨rfl, ha, hb⟩), rfl, rfl⟩

/-- Settles O40: the name and the other operand resolve, on either port. -/
theorem earlierResultReachesPort : Obligations.EarlierResultReachesPort := by
  intro s op k o src v rest hk hv
  have hres := Source.resolve_result hk
  exact ⟨fun hp => step_operands hp hres hv, fun hp => step_operands hp hv hres⟩

/-! ### A run of the queue (R41, R77) -/

/-- The results `rs'` are `rs` and then the answers of the lines in order, each line resolved on the results before it. -/
def AnsweredInOrder (rs : List Output) : List Line → List Output → Prop
  | [], rs' => rs' = rs
  | l :: ls, rs' => ∃ x, l.resolve rs = .ok x ∧ AnsweredInOrder (rs ++ [answer x]) ls rs'

theorem AnsweredInOrder.length_eq {rs rs' : List Output} {ls : List Line} (h : AnsweredInOrder rs ls rs') :
    rs'.length = rs.length + ls.length := by
  induction ls generalizing rs with
  | nil => exact congrArg List.length h
  | cons l ls ih =>
    obtain ⟨x, -, htail⟩ := h
    rw [ih htail, List.length_append, List.length_singleton, List.length_cons]
    omega

theorem AnsweredInOrder.isPrefix {rs rs' : List Output} {ls : List Line} (h : AnsweredInOrder rs ls rs') :
    rs <+: rs' := by
  induction ls generalizing rs with
  | nil => exact h ▸ List.prefix_rfl
  | cons l ls ih =>
    obtain ⟨x, -, htail⟩ := h
    exact (List.prefix_append _ _).trans (ih htail)

/-- The k-th line is resolved on the results before its own and answered as the result after them. -/
theorem AnsweredInOrder.getElem? {rs rs' : List Output} {ls : List Line} (h : AnsweredInOrder rs ls rs')
    {k : Nat} {l : Line} (hk : ls[k]? = some l) :
    ∃ x, l.resolve (rs'.take (rs.length + k)) = .ok x ∧ rs'[rs.length + k]? = some (answer x) := by
  induction ls generalizing rs k with
  | nil => cases hk
  | cons m ls ih =>
    have hrs := h.isPrefix
    obtain ⟨x, hx, htail⟩ := h
    cases k with
    | zero =>
      cases hk
      refine ⟨x, ?_, ?_⟩
      · rw [Nat.add_zero, ← List.prefix_iff_eq_take.mp hrs, hx]
      · simpa using List.prefix_iff_getElem?.mp htail.isPrefix rs.length (by simp)
    | succ k =>
      have hlen : (rs ++ [answer x]).length + k = rs.length + (k + 1) := by
        rw [List.length_append, List.length_singleton]
        omega
      exact hlen ▸ ih htail hk

/-- Under the invariant the line at the head of the queue resolves. -/
theorem PendingResolves.head {s : State} {l : Line} {rest : List Line} (h : PendingResolves s)
    (hp : s.pending = l :: rest) : ∃ x, l.resolve s.results = .ok x := by
  unfold PendingResolves at h
  rw [hp, Program.wf, Bool.and_eq_true] at h
  exact (Line.resolve_isOk _ _).mpr h.1

/-- As many steps as lines are queued answer them in order, empty the queue and keep the invariant. -/
theorem run_queue {ls : List Line} {s : State} (hp : s.pending = ls) (hs : Inv s) :
    ∃ t, Sys2Proof.core.run ls.length s = .next t ∧ t.pending = [] ∧ Inv t ∧
      AnsweredInOrder s.results ls t.results := by
  induction ls generalizing s with
  | nil => exact ⟨s, rfl, hp, hs, rfl⟩
  | cons l ls ih =>
    have ⟨_, _, hres⟩ := hs
    obtain ⟨x, hx⟩ := PendingResolves.head hres hp
    have hstep := step_queued hp hx
    obtain ⟨t, hrun, hend, ht, hans⟩ := ih rfl (stepKeepsInvariant _ _ hs hstep)
    exact ⟨t, (run_succ hstep).trans hrun, hend, ht, x, hx, hans⟩

/-- Settles O44: the results of the run are the answers in order, and those fix their number and every entry. -/
theorem queueRunsToItsEnd : Obligations.QueueRunsToItsEnd := by
  intro s hs
  obtain ⟨t, hrun, hend, ht, hans⟩ := run_queue rfl hs
  exact ⟨t, hrun, hend, ht, hans.length_eq, hans.isPrefix, fun k l => hans.getElem?⟩

end Machine

end Sys2Proof
end

section
/-! Proofs of the statements on the decoder, the record, the host's lines and the program text (30_encoding.md). -/

namespace Sys2Proof

/-! ### The opcode map and its inverse (R37, R38, R39) -/

theorem decode_isSub (op : BitVec 2) : (decode op).isSub = op[0] := by
  unfold decode
  cases op[1] <;> cases op[0] <;> rfl

@[simp] theorem decode_encode (i : Instr) : decode (encode i) = i := by
  cases i <;> rfl

@[simp] theorem encode_decode (op : BitVec 2) : encode (decode op) = op := by
  revert op
  decide

theorem decode_eq_iff {op : BitVec 2} {i : Instr} : decode op = i ↔ op = encode i := by
  constructor
  · rintro rfl
    exact (encode_decode op).symm
  · rintro rfl
    exact decode_encode i

/-- Settles O1: the four values are computed, and the two selecting bits are read off every `op`. -/
theorem decodesOpcodeMap : Obligations.DecodesOpcodeMap :=
  ⟨rfl, rfl, rfl, rfl, fun op => ⟨decode_isSub op, decode_isSat op⟩⟩

/-- Settles O2: the encoder is the inverse of the decoder. -/
theorem encodeDecodeRoundTrip : Obligations.EncodeDecodeRoundTrip :=
  ⟨decode_encode, encode_decode⟩

/-! ### The words of the opcode table (R35, R37) -/

/-- A number below 4 is two bits, and it decodes to the command with those bits. -/
theorem decodeNat_eq_ok {w : Nat} {i : Instr} : decodeNat w = .ok i ↔ w < 4 ∧ w = (encode i).toNat := by
  unfold decodeNat
  split
  · next hw =>
    have htoNat : (BitVec.ofNat 2 w).toNat = w := Nat.mod_eq_of_lt hw
    rw [Except.ok.injEq, decode_eq_iff, ← BitVec.toNat_inj, htoNat]
    exact (and_iff_right hw).symm
  · next hw => exact ⟨nofun, fun ⟨hlt, _⟩ => absurd hlt hw⟩

theorem decodeTableWord_eq_some {n w : Nat} {i : Instr} :
    decodeTableWord n w = some i ↔ w < 2 ^ n ∧ decodeNat w = .ok i := by
  unfold decodeTableWord
  cases decodeNat w <;> simp [Except.toOption]

/-- Settles O3: a table word fits its width and is then read as a number. -/
theorem tableWordsAreTheFourCommands : Obligations.TableWordsAreTheFourCommands := by
  intro n w i
  rw [decodeTableWord_eq_some, decodeNat_eq_ok]

/-- The encoding of a command, padded to a byte, is its word of the opcode table. -/
theorem decodeTableWord_encode (i : Instr) : decodeTableWord 8 (encode i).toNat = some i := by
  have hlt : (encode i).toNat < 2 ^ 2 := (encode i).isLt
  exact decodeTableWord_eq_some.mpr ⟨by omega, decodeNat_eq_ok.mpr ⟨hlt, rfl⟩⟩

/-! ### The TX130 record (R40) -/

/-- Words that agree on a field agree on each of its bits. -/
theorem getLsbD_eq_of_extractLsb'_eq {w start len i : Nat} {r r' : BitVec w}
    (h : r.extractLsb' start len = r'.extractLsb' start len) (hlo : start ≤ i) (hhi : i < start + len) :
    r.getLsbD i = r'.getLsbD i := by
  have hbit := congrArg (BitVec.getLsbD · (i - start)) h
  simpa [BitVec.getLsbD_extractLsb', show i - start < len by omega, Nat.add_sub_cancel' hlo] using hbit

/-- Every bit of a record lies in one of its three fields, so records with the same transaction are equal. -/
theorem Transaction.ofRecord_injective : Function.Injective Transaction.ofRecord := by
  intro r r' h
  obtain ⟨hop, ha, hb⟩ := Transaction.mk.inj h
  apply BitVec.eq_of_getLsbD_eq
  intro i hi
  by_cases hlow : i < 64
  · exact getLsbD_eq_of_extractLsb'_eq ha (Nat.zero_le i) (by omega)
  · by_cases hmid : i < 128
    · exact getLsbD_eq_of_extractLsb'_eq hb (by omega) (by omega)
    · exact getLsbD_eq_of_extractLsb'_eq hop (by omega) (by omega)

theorem Transaction.toRecord_ofRecord (r : BitVec 130) : (Transaction.ofRecord r).toRecord = r :=
  Transaction.ofRecord_injective (Transaction.ofRecord_toRecord _)

/-- Settles O4: each field is read back from its own bits, and the fields make up the record. -/
theorem recordRoundTrip : Obligations.RecordRoundTrip :=
  ⟨fun t => ⟨t.toRecord_a, t.toRecord_b, t.toRecord_op, t.ofRecord_toRecord⟩, Transaction.toRecord_ofRecord⟩

/-! ### The program text (R41) -/

namespace Asm

/-- The reader makes one line of each line of text. -/
theorem length_of_parseLines {text : List (List Char)} {n : Nat} {ls : List Line} (h : parseLines n text = some ls) :
    ls.length = text.length := by
  induction text generalizing n ls with
  | nil =>
    cases h
    rfl
  | cons cs rest ih =>
    unfold parseLines at h
    split at h
    · next hrest =>
      split at h
      · cases h
        exact congrArg (· + 1) (ih hrest)
      · cases h
    · cases h

/-- An accepted text was read line by line, and every operand of it names an earlier result only. -/
theorem parseProgram_eq_some {text : List (List Char)} {ls : List Line} :
    parseProgram text = some ls ↔ parseLines 0 text = some ls ∧ Program.wf 0 ls = true := by
  unfold parseProgram
  cases parseLines 0 text with
  | none => simp
  | some ls' =>
    simp only [Option.ite_none_right_eq_some, Option.some.injEq]
    constructor
    · rintro ⟨hwf, rfl⟩
      exact ⟨rfl, hwf⟩
    · rintro ⟨rfl, hwf⟩
      exact ⟨hwf, rfl⟩

end Asm

namespace Machine

@[simp] theorem answer_encode (i : Instr) (a b : Word) :
    answer { op := encode i, a := a, b := b } = respond i a b := by
  rw [answer, decode_encode]

/-! ### The pseudo-instructions (R42) -/

/-- A line of a command whose two operands resolve stands for a transaction that is answered by that command. -/
theorem exists_answer_of_operands {rs : List Output} {i : Instr} {a b : Source} {va vb : Word}
    (ha : a.resolve rs = .ok va) (hb : b.resolve rs = .ok vb) :
    ∃ x, Line.resolve rs { op := encode i, a := a, b := b } = .ok x ∧ answer x = respond i va vb :=
  ⟨_, Line.resolve_eq_ok.mpr ⟨rfl, ha, hb⟩, answer_encode i va vb⟩

theorem exactSum_zero (v : Word) : exactSum v Constant.zero.word = s64 v := Int.add_zero _

theorem exactDiff_zero (v : Word) : exactDiff Constant.zero.word v = -s64 v := Int.zero_sub _

theorem exactSum_self (v : Word) : exactSum v v = 2 * s64 v := (Int.two_mul _).symm

/-- NaN is the only word whose negation is out of range. -/
theorem overflows_neg_iff (v : Word) : overflows (-s64 v) = true ↔ v = Constant.nan.word := by
  have hlo := s64_lower v
  have hhi := s64_upper v
  rw [overflows_iff]
  constructor
  · intro h
    exact s64_injective (by rw [s64_nan]; omega)
  · rintro rfl
    rw [s64_nan]
    decide

/-- What NEG answers. -/
theorem respond_sub_zero (v : Word) :
    respond .sub Constant.zero.word v = { y := enc64 (-s64 v), sat := false } := by
  rw [← exactDiff_zero]
  rfl

/-- What NEGSAT answers where the negation is exact. -/
theorem respond_subsat_zero {v : Word} (h : v ≠ Constant.nan.word) :
    (respond .subsat Constant.zero.word v).sat = false ∧ s64 (respond .subsat Constant.zero.word v).y = -s64 v := by
  have hfits : overflows (exactDiff Constant.zero.word v) = false := by
    rw [exactDiff_zero, Bool.eq_false_iff, ne_eq, overflows_neg_iff]
    exact h
  have hsat : (respond .subsat Constant.zero.word v).sat = false := (respond_sat ..).trans hfits
  refine ⟨hsat, ?_⟩
  rw [respond_y_of_sat_false hsat, ← exactDiff_zero]
  exact s64_rSub_of_fits hfits

/-- What MOV answers. -/
theorem respond_add_zero (v : Word) : respond .add v Constant.zero.word = { y := v, sat := false } := by
  calc respond .add v Constant.zero.word = { y := enc64 (s64 v), sat := false } := by rw [← exactSum_zero]; rfl
    _ = { y := v, sat := false } := by rw [enc64_s64]

/-- What DBL answers. -/
theorem respond_add_self (v : Word) : respond .add v v = { y := enc64 (2 * s64 v), sat := false } := by
  rw [← exactSum_self]
  rfl

/-- A saturating command answers SAT_MAX above the signed range, SAT_MIN below it, and the exact result inside it. -/
theorem respond_of_isSat {i : Instr} (hi : i.isSat = true) (a b : Word) :
    respond i a b =
      if 2 ^ 63 - 1 < exactResult i a b then { y := config.satMax, sat := true }
      else if exactResult i a b < -2 ^ 63 then { y := config.satMin, sat := true }
      else { y := enc64 (exactResult i a b), sat := false } := by
  simp only [respond_eq_ite, hi, overflows_iff, true_and]
  by_cases hmax : 2 ^ 63 - 1 < exactResult i a b
  · rw [if_pos (.inr hmax), if_neg (by omega), if_pos hmax]
  · rw [if_neg hmax]
    by_cases hmin : exactResult i a b < -2 ^ 63
    · rw [if_pos (.inl hmin), if_pos (by omega), if_pos hmin]
    · rw [if_neg (not_or.mpr ⟨hmin, hmax⟩), if_neg hmin]

/-- What DBLSAT answers. -/
theorem respond_addsat_self (v : Word) :
    respond .addsat v v =
      if 2 ^ 63 - 1 < 2 * s64 v then { y := config.satMax, sat := true }
      else if 2 * s64 v < -2 ^ 63 then { y := config.satMin, sat := true }
      else { y := enc64 (2 * s64 v), sat := false } := by
  have hexact : exactResult .addsat v v = 2 * s64 v := exactSum_self v
  rw [respond_of_isSat rfl, hexact]

/-- Settles O33: the operands of each expansion are `v` and zero, or `v` twice. -/
theorem pseudoInstructionResults : Obligations.PseudoInstructionResults := by
  intro rs src v hv
  have hzero : (Source.const .zero).resolve rs = .ok Constant.zero.word := rfl
  refine ⟨?neg, ?negsat, ?mov, ?dbl, ?dblsat⟩
  case neg =>
    obtain ⟨x, hx, hans⟩ := exists_answer_of_operands (i := .sub) hzero hv
    refine ⟨x, hx, hans.trans (respond_sub_zero v), ?_⟩
    rintro rfl
    rw [hans]
    decide
  case negsat =>
    obtain ⟨x, hx, hans⟩ := exists_answer_of_operands (i := .subsat) hzero hv
    refine ⟨x, hx, ?_, fun hne => hans ▸ respond_subsat_zero hne⟩
    rintro rfl
    rw [hans]
    decide
  case mov =>
    obtain ⟨x, hx, hans⟩ := exists_answer_of_operands (i := .add) hv hzero
    exact ⟨x, hx, hans.trans (respond_add_zero v)⟩
  case dbl =>
    obtain ⟨x, hx, hans⟩ := exists_answer_of_operands (i := .add) hv hv
    exact ⟨x, hx, hans.trans (respond_add_self v)⟩
  case dblsat =>
    obtain ⟨x, hx, hans⟩ := exists_answer_of_operands (i := .addsat) hv hv
    exact ⟨x, hx, hans.trans (respond_addsat_self v)⟩

/-! ### The placed word, progress and the end of a text -/

theorem queueWithWord_encode (i : Instr) (q : List Line) :
    queueWithWord 8 (encode i).toNat q =
      Line.ofTransaction { op := encode i, a := 0#64, b := 0#64 } :: q.tail := by
  rw [queueWithWord, lineOfTableWord, decodeTableWord_encode]
  rfl

/-- Settles O35: the placed word is a line of literals at the head of the queue. -/
theorem fetchedWordRunsNext : Obligations.FetchedWordRunsNext := by
  intro s i
  have hp := (State.withFetchWord_pending s 8 (encode i).toNat).trans (queueWithWord_encode i s.pending)
  rw [step_queued hp (Line.resolve_ofTransaction _ _), answer_encode, State.withFetchWord_results]

/-- Settles O43: a queued line resolves under the invariant, and without one the unanswered transaction is answered. -/
theorem invariantStateProgresses : Obligations.InvariantStateProgresses := by
  rintro s ⟨-, -, hres⟩ hrun
  cases hp : s.pending with
  | cons l rest =>
    obtain ⟨x, hx⟩ := hres.head hp
    exact ⟨_, step_queued hp hx⟩
  | nil =>
    obtain ⟨hi, ho⟩ := hrun.resolve_left (not_not_intro hp)
    obtain ⟨x, hx⟩ := Option.isSome_iff_exists.mp hi
    exact ⟨_, step_unanswered hp hx ho⟩

/-- A step makes the outputs coherent, so the rest of the invariant before it is enough for all of it after. -/
theorem inv_of_step {s t : State} (hsat : ResultsSaturate s) (hres : PendingResolves s) (h : step s = .next t) :
    Inv t :=
  ⟨.inr (step_outputs_eq h), step_resultsSaturate hsat h, step_pendingResolves hres h⟩

/-- A queue of lines that resolve runs to its end, whatever stands on the ports. -/
theorem run_queue_of_resolves {s : State} (hsat : ResultsSaturate s) (hres : PendingResolves s) :
    ∃ t, Sys2Proof.core.run s.pending.length s = .next t ∧ t.pending = [] ∧
      AnsweredInOrder s.results s.pending t.results := by
  cases hp : s.pending with
  | nil => exact ⟨s, rfl, hp, rfl⟩
  | cons l rest =>
    obtain ⟨x, hx⟩ := hres.head hp
    have hstep := step_queued hp hx
    obtain ⟨t, hrun, hend, -, hans⟩ := run_queue rfl (inv_of_step hsat hres hstep)
    exact ⟨t, (run_succ hstep).trans hrun, hend, x, hx, hans⟩

/-- Settles O45: the queue is the accepted lines, well formed as lines t0, t1, … and as many as the text has. -/
theorem acceptedTextRuns : Obligations.AcceptedTextRuns := by
  intro text ls s hparse hp hr
  obtain ⟨hlines, hwf⟩ := Asm.parseProgram_eq_some.mp hparse
  have hq : (s.enqueue ls).pending = ls := by rw [State.enqueue_pending, hp, List.nil_append]
  have hrs : (s.enqueue ls).results = [] := hr
  have hres : PendingResolves (s.enqueue ls) := by
    rw [PendingResolves, hq, hrs]
    exact hwf
  have hsat : ResultsSaturate (s.enqueue ls) := by
    rw [ResultsSaturate, hrs]
    exact fun _ ho => absurd ho List.not_mem_nil
  obtain ⟨t, hrun, hend, hans⟩ := run_queue_of_resolves hsat hres
  rw [hq] at hrun
  refine ⟨t, hrun, hend, ?_⟩
  rw [hans.length_eq, hq, hrs, Asm.length_of_parseLines hlines]
  exact Nat.zero_add _

end Machine

end Sys2Proof
end

section
/-! Proofs of the statements on the exact, wrapped and saturated results of the four commands (40_add_sub.md). -/

namespace Sys2Proof

/-! ### The sign bit, and an integer that fits (R9, R45) -/

theorem sign_bit_eq_true_iff (v : Word) : v[63] = true ↔ s64 v < 0 := by
  rw [sign_bit, decide_eq_true_iff]

theorem sign_bit_eq_false_iff (v : Word) : v[63] = false ↔ 0 ≤ s64 v := by
  rw [sign_bit, decide_eq_false_iff_not, Int.not_lt]

theorem sign_bit_eq_iff (v w : Word) : v[63] = w[63] ↔ (s64 v < 0 ↔ s64 w < 0) := by
  rw [sign_bit, sign_bit, decide_eq_decide]

namespace Machine

theorem overflows_eq_false_iff (n : Int) : overflows n = false ↔ -2 ^ 63 ≤ n ∧ n ≤ 2 ^ 63 - 1 := by
  rw [Bool.eq_false_iff, ne_eq, overflows_iff, not_or, Int.not_lt, Int.not_lt]

theorem overflows_s64 (v : Word) : overflows (s64 v) = false :=
  (overflows_eq_false_iff _).mpr ⟨s64_lower v, Int.le_sub_one_of_lt (s64_upper v)⟩

theorem s64_enc64_of_fits {n : Int} (h : overflows n = false) : s64 (enc64 n) = n := by
  obtain ⟨hlo, hhi⟩ := (overflows_eq_false_iff n).mp h
  exact s64_enc64_of_range hlo hhi

/-- The two ways in which R45 says that an integer fits. -/
theorem overflows_eq_false_iff_s64_enc64 (n : Int) : overflows n = false ↔ s64 (enc64 n) = n :=
  ⟨s64_enc64_of_fits, fun h => h ▸ overflows_s64 _⟩

theorem overflows_iff_s64_enc64_ne (n : Int) : overflows n = true ↔ s64 (enc64 n) ≠ n := by
  rw [ne_eq, ← overflows_eq_false_iff_s64_enc64, Bool.not_eq_false]

/-! ### Exact and wrapped results (R43, R44) -/

/-- Settles O17: the ranges are the sum and the difference of the operands' ranges. -/
theorem exactResultRanges : Obligations.ExactResultRanges := by
  intro a b
  have ha := s64_lower a
  have ha' := s64_upper a
  have hb := s64_lower b
  have hb' := s64_upper b
  refine ⟨rfl, rfl, ?_⟩
  unfold exactSum exactDiff
  omega

theorem exactSum_comm (a b : Word) : exactSum a b = exactSum b a := Int.add_comm _ _

theorem exactDiff_self (a : Word) : exactDiff a a = 0 := Int.sub_self _

/-- The wrapped sum of the unsigned readings. -/
theorem enc64_u64_add (a b : Word) : enc64 (u64 a + u64 b) = rAdd a b := by
  rw [enc64_add, enc64_u64, enc64_u64, rAdd_eq_add]

/-- The wrapped difference by the complement of `b` and a carry in. -/
theorem enc64_u64_add_not_add_one (a b : Word) : enc64 (u64 a + u64 (~~~b) + 1) = rSub a b := by
  have hone : enc64 1 = 1#64 := rfl
  rw [enc64_add, enc64_add, enc64_u64, enc64_u64, hone, rSub_eq_sub, BitVec.sub_eq_add_neg, BitVec.neg_eq_not_add,
    BitVec.add_assoc]

theorem respond_add_y (a b : Word) : (respond .add a b).y = a + b := rAdd_eq_add a b

theorem respond_sub_y (a b : Word) : (respond .sub a b).y = a - b := rSub_eq_sub a b

/-- Settles O18: each form names the bits of `a + b` or `a - b`. -/
theorem wrappedResultsBitForBit : Obligations.WrappedResultsBitForBit := by
  intro a b
  rw [enc64_u64_add, enc64_u64_add_not_add_one]
  exact ⟨answers_iff.mpr rfl, answers_iff.mpr rfl, answers_iff.mpr rfl, answers_iff.mpr rfl, u64_enc64 _, u64_enc64 _⟩

/-! ### A command answers by its exact result alone (R45, R54) -/

/-- Commands of one variant with the same exact result answer the same. -/
theorem respond_congr {i j : Instr} {a b c d : Word} (hsat : i.isSat = j.isSat)
    (hexact : exactResult i a b = exactResult j c d) : respond i a b = respond j c d := by
  rw [respond_eq_ite, respond_eq_ite, hsat, hexact]

theorem respond_of_fits {i : Instr} {a b : Word} (h : overflows (exactResult i a b) = false) :
    respond i a b = { y := enc64 (exactResult i a b), sat := false } := by
  rw [respond_eq_ite, if_neg]
  rintro ⟨-, hov⟩
  exact Bool.eq_false_iff.mp h hov

theorem s64_respond_of_fits {i : Instr} {a b : Word} (h : overflows (exactResult i a b) = false) :
    s64 (respond i a b).y = exactResult i a b := by
  rw [respond_of_fits h, s64_enc64_of_fits h]

/-- An exact result that is the reading of a word is answered by that word. -/
theorem respond_of_exactResult_eq_s64 {i : Instr} {a b v : Word} (h : exactResult i a b = s64 v) :
    respond i a b = { y := v, sat := false } := by
  rw [respond_of_fits (h ▸ overflows_s64 v), h, enc64_s64]

/-- Zero is a right identity of every command. -/
theorem respond_zero_right (i : Instr) (a : Word) : respond i a Constant.zero.word = { y := a, sat := false } := by
  apply respond_of_exactResult_eq_s64
  cases i with
  | add | addsat => exact Int.add_zero _
  | sub | subsat => exact Int.sub_zero _

/-- A word less itself is Zero, under both variants. -/
theorem respond_self_of_isSub {i : Instr} (hi : i.isSub = true) (a : Word) :
    respond i a a = { y := Constant.zero.word, sat := false } :=
  respond_of_exactResult_eq_s64 ((if_pos hi).trans (exactDiff_self a))

/-- Settles O19: the three readings of overflow are one range, and an exact result inside it is answered as it is. -/
theorem overflowIsLossOfExactValue : Obligations.OverflowIsLossOfExactValue := by
  intro i a b e
  refine ⟨?_, overflows_iff_s64_enc64_ne e, ?_, s64_respond_of_fits⟩
  · rw [← overflows_eq_false_iff, Bool.not_eq_false]
  · rw [overflows_iff, or_comm]

/-! ### The wrapping commands (R49, R50) -/

/-- Settles O10: the encoding and the wrapped sum are computed by definition; the cases are its values. -/
theorem addResult : Obligations.AddResult :=
  ⟨rfl, fun _ _ => answers_iff.mpr rfl, answers_iff.mpr (by decide), fun a => answers_iff.mpr (respond_add_self a),
    answers_iff.mpr (by decide), fun a => answers_iff.mpr (respond_zero_right .add a), answers_iff.mpr (by decide)⟩

/-- Settles O11: the encoding and the wrapped difference are computed by definition; the cases are its values. -/
theorem subResult : Obligations.SubResult :=
  ⟨rfl, fun _ _ => answers_iff.mpr rfl, fun a => answers_iff.mpr (respond_self_of_isSub rfl a),
    answers_iff.mpr (by decide), answers_iff.mpr (by decide), fun a => answers_iff.mpr (respond_zero_right .sub a),
    answers_iff.mpr (by decide)⟩

/-! ### The overflow tests (R46, R47) -/

theorem ovfAdd_iff (a b : Word) :
    ovfAdd a b = true ↔ a[63] = b[63] ∧ (enc64 (s64 a + s64 b))[63] ≠ a[63] := by
  rw [ovfAdd, Bool.and_eq_true, beq_iff_eq, bne_iff_ne]
  rfl

theorem ovfSub_iff (a b : Word) :
    ovfSub a b = true ↔ a[63] ≠ b[63] ∧ (enc64 (s64 a - s64 b))[63] ≠ a[63] := by
  rw [ovfSub, Bool.and_eq_true, bne_iff_ne, bne_iff_ne]
  rfl

/-- Operands of opposite sign have an exact sum that fits. -/
theorem overflows_exactSum_of_sign_ne {a b : Word} (h : a[63] ≠ b[63]) : overflows (exactSum a b) = false := by
  rw [← ovfAdd_eq_overflows, Bool.eq_false_iff, ne_eq, ovfAdd_iff]
  exact fun hov => h hov.1

/-- Operands of one sign have an exact difference that fits. -/
theorem overflows_exactDiff_of_sign_eq {a b : Word} (h : a[63] = b[63]) : overflows (exactDiff a b) = false := by
  rw [← ovfSub_eq_overflows, Bool.eq_false_iff, ne_eq, ovfSub_iff]
  exact fun hov => hov.1 h

/-- Settles O20: the test is overflow of the exact sum, and R45 reads overflow in two ways. -/
theorem additionOverflowTest : Obligations.AdditionOverflowTest := by
  intro a b
  have hov : ovfAdd a b = overflows (s64 a + s64 b) := ovfAdd_eq_overflows a b
  refine ⟨rfl, saturate_sat .., ?_, ?_, fun hne => ?_, fun heq => ?_⟩
  · rw [hov, overflows_iff]
  · rw [hov, overflows_iff_s64_enc64_ne]
  · exact (overflows_eq_false_iff _).mp (overflows_exactSum_of_sign_ne hne)
  · rw [ovfAdd_iff, and_iff_right heq]

/-- Settles O21: the test is overflow of the exact difference; with opposite signs only its second half is left. -/
theorem subtractionOverflowTest : Obligations.SubtractionOverflowTest := by
  refine ⟨fun a b => ⟨rfl, saturate_sat .., ?_, fun heq => ?_, fun ha hb => ⟨?_, ?_⟩, fun ha hb => ⟨?_, ?_⟩⟩, by decide⟩
  · rw [ovfSub_eq_overflows, overflows_iff, exactDiff]
  · have ha := s64_lower a
    have ha' := s64_upper a
    have hb := s64_lower b
    have hb' := s64_upper b
    have hsign := (sign_bit_eq_iff a b).mp heq
    omega
  · rw [sign_bit_eq_false_iff] at ha
    rw [sign_bit_eq_true_iff] at hb
    omega
  · simp [ovfSub_iff, ha, hb]
  · rw [sign_bit_eq_true_iff] at ha
    rw [sign_bit_eq_false_iff] at hb
    omega
  · simp [ovfSub_iff, ha, hb]

/-! ### The saturation value (R48) -/

/-- An overflowing sum has the sign of its operands. -/
theorem exactSum_neg_iff_of_ovfAdd {a b : Word} (h : ovfAdd a b = true) : exactSum a b < 0 ↔ a[63] = true := by
  have hsign := (sign_bit_eq_iff a b).mp ((ovfAdd_iff a b).mp h).1
  rw [sign_bit_eq_true_iff]
  unfold exactSum
  omega

/-- An overflowing difference has the sign of the minuend. -/
theorem exactDiff_neg_iff_of_ovfSub {a b : Word} (h : ovfSub a b = true) : exactDiff a b < 0 ↔ a[63] = true := by
  have hsign := mt (sign_bit_eq_iff a b).mpr ((ovfSub_iff a b).mp h).1
  rw [sign_bit_eq_true_iff]
  unfold exactDiff
  omega

/-- A saturation value that goes by the sign of an overflowing result is SAT_MAX above the signed range, SAT_MIN below. -/
theorem satValue_direction {a : Word} {exact : Int}
    (h : overflows exact = true → satValue config a = if exact < 0 then config.satMin else config.satMax) :
    (2 ^ 63 - 1 < exact → satValue config a = config.satMax) ∧
    (exact < -2 ^ 63 → satValue config a = config.satMin) := by
  constructor
  · intro hmax
    rw [h ((overflows_iff exact).mpr (.inr hmax)), if_neg (by omega)]
  · intro hmin
    rw [h ((overflows_iff exact).mpr (.inl hmin)), if_pos (by omega)]

theorem respond_addsat_y_of_ovfAdd {a b : Word} (h : ovfAdd a b = true) :
    (respond .addsat a b).y = satValue config a :=
  (saturate_y ..).trans (if_pos h)

theorem respond_subsat_y_of_ovfSub {a b : Word} (h : ovfSub a b = true) :
    (respond .subsat a b).y = satValue config a :=
  (saturate_y ..).trans (if_pos h)

/-- Settles O22: the value goes by the sign of `a`, and on overflow that is the sign of the exact result. -/
theorem saturationValueDirection : Obligations.SaturationValueDirection := by
  refine ⟨rfl, rfl, fun a b => ?_⟩
  obtain ⟨hsumMax, hsumMin⟩ := satValue_direction fun h =>
    satValue_of_ovfAdd config ((ovfAdd_eq_overflows a b).trans h)
  obtain ⟨hdiffMax, hdiffMin⟩ := satValue_direction fun h =>
    satValue_of_ovfSub config ((ovfSub_eq_overflows a b).trans h)
  refine ⟨respond_addsat_y_of_ovfAdd, respond_subsat_y_of_ovfSub, fun h => ?_, exactDiff_neg_iff_of_ovfSub, fun h => ?_,
    fun h => ?_, hsumMax, hsumMin, hdiffMax, hdiffMin⟩
  · exact ⟨((ovfAdd_iff a b).mp h).1, exactSum_neg_iff_of_ovfAdd h⟩
  · rw [satValue, h, if_neg Bool.false_ne_true]
  · rw [satValue, h, if_pos rfl]

/-! ### The saturating commands (R51, R52, R54) -/

/-- ADDSAT with the test of R46 and the value of R48 written out. -/
theorem respond_addsat_eq_ite (a b : Word) :
    respond .addsat a b =
      if a[63] = b[63] ∧ (enc64 (s64 a + s64 b))[63] ≠ a[63]
        then { y := satValue config a, sat := true }
        else { y := enc64 (s64 a + s64 b), sat := false } :=
  if_congr (ovfAdd_iff a b) rfl rfl

/-- SUBSAT with the test of R47 and the value of R48 written out. -/
theorem respond_subsat_eq_ite (a b : Word) :
    respond .subsat a b =
      if a[63] ≠ b[63] ∧ (enc64 (s64 a - s64 b))[63] ≠ a[63]
        then { y := satValue config a, sat := true }
        else { y := enc64 (s64 a - s64 b), sat := false } :=
  if_congr (ovfSub_iff a b) rfl rfl

/-- With NaN as the second operand exactly one of SUBSAT and ADDSAT overflows: its negation is out of range. -/
theorem respond_subsat_nan_ne (a : Word) :
    respond .subsat a Constant.nan.word ≠ respond .addsat a Constant.nan.word := by
  intro h
  have hov : overflows (exactDiff a Constant.nan.word) = overflows (exactSum a Constant.nan.word) := by
    have hsat := congrArg Output.sat h
    rwa [respond_sat, respond_sat] at hsat
  have ha := s64_lower a
  have ha' := s64_upper a
  rw [Bool.eq_iff_iff, overflows_iff, overflows_iff, exactDiff, exactSum, s64_nan] at hov
  omega

theorem respond_sub_zero_nan : (respond .sub Constant.zero.word Constant.nan.word).y = Constant.nan.word := by decide

/-- Settles O12: the sum wraps or saturates by the sign test; operands of opposite sign pass it. -/
theorem addsatResult : Obligations.AddsatResult :=
  ⟨rfl, fun a b => answers_iff.mpr (respond_addsat_eq_ite a b), answers_iff.mpr (by decide), answers_iff.mpr (by decide),
    answers_iff.mpr (by decide), fun a => answers_iff.mpr (respond_zero_right .addsat a),
    fun _ _ h => answers_iff.mpr (respond_of_fits (i := .addsat) (overflows_exactSum_of_sign_ne h)),
    answers_iff.mpr (by decide)⟩

/-- Settles O13: the difference wraps or saturates by the sign test; operands of one sign pass it. -/
theorem subsatResult : Obligations.SubsatResult :=
  ⟨rfl, fun a b => answers_iff.mpr (respond_subsat_eq_ite a b),
    fun a => answers_iff.mpr (respond_self_of_isSub rfl a), answers_iff.mpr (by decide), answers_iff.mpr (by decide),
    fun _ _ h => answers_iff.mpr (respond_of_fits (i := .subsat) (overflows_exactDiff_of_sign_eq h)),
    fun a => respond_sub_zero_nan ▸ respond_subsat_nan_ne a, answers_iff.mpr (by decide)⟩

/-- A saturated answer has the sign of the exact result, which is not zero. -/
theorem s64_respond_sign_of_sat {i : Instr} {a b : Word} (h : (respond i a b).sat = true) :
    (s64 (respond i a b).y < 0 ↔ exactResult i a b < 0) ∧ (0 < s64 (respond i a b).y ↔ 0 < exactResult i a b) := by
  have hy : (respond i a b).y = if exactResult i a b < 0 then Constant.minValue.word else Constant.maxValue.word :=
    respondWith_y_of_sat config h
  obtain ⟨-, hov⟩ := respond_sat_iff.mp h
  rw [overflows_iff] at hov
  rw [hy]
  split
  · rw [s64_minValue]
    omega
  · rw [s64_maxValue]
    omega

/-- Settles O23: a saturating command answers by its exact result, and the three sentinels beyond the saturation values are
results that fit. -/
theorem saturatingClosedForm : Obligations.SaturatingClosedForm := by
  intro i a b hi e
  have hsat : i.isSat = true := by
    obtain rfl | rfl := hi <;> rfl
  exact ⟨answers_iff.mpr (respond_of_isSat hsat a b),
    fun h => respond_of_exactResult_eq_s64 (h.trans s64_positiveInfinity.symm),
    fun h => respond_of_exactResult_eq_s64 (h.trans s64_negativeInfinity.symm),
    fun h => respond_of_exactResult_eq_s64 (h.trans s64_nan.symm), s64_respond_sign_of_sat⟩

/-! ### Laws (R55, R56, R57) -/

/-- Adding the saturating negation gives Zero where the negation is exact. -/
theorem respond_addsat_neg {a : Word} (h : a ≠ Constant.nan.word) :
    respond .addsat a (respond .subsat Constant.zero.word a).y = { y := Constant.zero.word, sat := false } := by
  apply respond_of_exactResult_eq_s64
  calc s64 a + s64 (respond .subsat Constant.zero.word a).y = s64 a + -s64 a := by rw [(respond_subsat_zero h).2]
    _ = 0 := Int.add_right_neg _

/-- Settles O28: each identity is one of exact results, and NaN is the word whose negation saturates. -/
theorem arithmeticIdentities : Obligations.ArithmeticIdentities := by
  refine ⟨fun a b => ⟨respond_congr rfl (exactSum_comm a b), respond_congr rfl (exactSum_comm a b)⟩,
    respond_zero_right, fun a => ⟨respond_self_of_isSub rfl a, respond_self_of_isSub rfl a, ?_, respond_addsat_neg⟩,
    by decide, by decide⟩
  rw [respond_add_y, respond_sub_y]
  exact add_sub_cancel a 0

/-- Wrapping is additive, so it commutes with every node of a tree. -/
theorem WrapTree.run_eq_enc64_exact (t : WrapTree) : t.run = enc64 t.exact := by
  induction t with
  | word v => exact (enc64_s64 v).symm
  | add l r hl hr => rw [run, exact, respond_add_y, hl, hr, enc64_add]
  | sub l r hl hr => rw [run, exact, respond_sub_y, hl, hr, enc64_sub]

/-- Settles O29: the first part is the induction over the tree; `SUBSAT (SUBSAT MinValue, One), −One` saturates and comes up
by One again, while either regrouping gives MinValue. -/
theorem wrappingTreesExactModulo : Obligations.WrappingTreesExactModulo :=
  ⟨WrapTree.run_eq_enc64_exact, by decide, by decide,
    ⟨Constant.minValue.word, Constant.one.word, 0xFFFFFFFF00000000#64, by decide⟩,
    ⟨Constant.minValue.word, Constant.one.word, 0xFFFFFFFF00000000#64, by decide⟩⟩

/-- The wrapping negation of every word but NaN is exact. -/
theorem s64_respond_sub_zero {b : Word} (h : b ≠ Constant.nan.word) :
    s64 (respond .sub Constant.zero.word b).y = -s64 b := by
  have hfits : overflows (-s64 b) = false := Bool.eq_false_iff.mpr (mt (overflows_neg_iff b).mp h)
  rw [respond_sub_zero, s64_enc64_of_fits hfits]

/-- Settles O30: an exact negation makes the difference a sum, and NaN's negation is NaN. -/
theorem subsatVersusNegatedAddsat : Obligations.SubsatVersusNegatedAddsat := by
  refine ⟨fun a b hb => respond_congr rfl ?_, respond_sub_zero_nan, respond_subsat_nan_ne, by decide, by decide⟩
  calc s64 a - s64 b = s64 a + -s64 b := Int.sub_eq_add_neg
    _ = s64 a + s64 (respond .sub Constant.zero.word b).y := by rw [s64_respond_sub_zero hb]

/-! ### The fixed-point reading (R58) -/

/-- The semantic value of an exact result is the sum or difference of the operands' values. -/
theorem exactResult_div (i : Instr) (a b : Word) :
    (exactResult i a b : Rat) / 2 ^ 32 = if i.isSub then value a - value b else value a + value b := by
  unfold exactResult exactSum exactDiff value Config.fracBits
  split
  · rw [Int.cast_sub, sub_div]
  · rw [Int.cast_add, add_div]

/-- Without overflow the integer part of a sum takes in the carry out of the fractions. -/
theorem intPart_respond_add {a b : Word} (h : overflows (exactSum a b) = false) :
    intPart (respond .add a b).y =
      intPart a + intPart b + (if 2 ^ 32 ≤ fracPart a + fracPart b then 1 else 0) := by
  have hy : s64 (respond .add a b).y = s64 a + s64 b := s64_rAdd_of_fits h
  simp only [intPart_eq_ediv, fracPart_eq_emod, hy]
  split <;> omega

/-- Without overflow the integer part of a difference gives the borrow to the fractions. -/
theorem intPart_respond_sub {a b : Word} (h : overflows (exactDiff a b) = false) :
    intPart (respond .sub a b).y = intPart a - intPart b - (if fracPart a < fracPart b then 1 else 0) := by
  have hy : s64 (respond .sub a b).y = s64 a - s64 b := s64_rSub_of_fits h
  simp only [intPart_eq_ediv, fracPart_eq_emod, hy]
  split <;> omega

/-- Settles O31: without overflow `y` reads back as the exact result, whose parts are quotient and remainder. -/
theorem fixedPointExact : Obligations.FixedPointExact :=
  ⟨fun i a b h => (value_of_s64 (s64_respond_of_fits h)).trans (exactResult_div i a b),
    fun _ _ => intPart_respond_add, fun _ _ => intPart_respond_sub, by decide⟩

end Machine

end Sys2Proof
end

section
/-! Proof of the statement that no transaction raises an exception (60_exceptions.md). -/

namespace Sys2Proof.Machine

/-- Settles O14: `exec_presented` asks nothing of the command or of the operands, so it also holds of the command the
presented `op` decodes to, whose outputs are the transaction's answer. -/
theorem everyTransactionCompletes : Obligations.EveryTransactionCompletes :=
  fun _ x hx => ⟨fun i => exec_presented i hx, exec_presented (decode x.op) hx⟩

end Sys2Proof.Machine
end

section
/-! Proofs of the statements on the latency of the outputs (70_reset_and_hazards.md R79, R80). -/

namespace Sys2Proof.Machine

/-- A read before the latency has no value, also where the transaction has answered (R79). -/
theorem readAt_of_lt {s : State} {o : Output} {n k : Nat} (ho : s.outputs = some o) (h : k < n) :
    s.readAt n k = .error .resultNotValid := by
  rw [State.readAt, State.settledOutputs_ok.mpr ho]
  exact if_pos h

/-- Settles O8: a read of answered outputs is decided by comparing the wait with the latency. -/
theorem readValidFromLatencyOn : Obligations.ReadValidFromLatencyOn :=
  fun _ _ ho => ⟨fun _ _ => readAt_of_le ho, fun _ _ => readAt_of_lt ho, fun k => readAt_of_le ho k.zero_le, fun _ => rfl⟩

/-- Answered outputs are readable exactly from the latency on. -/
theorem exists_readAt_eq_ok_iff {s : State} {o : Output} {n k : Nat} (ho : s.outputs = some o) :
    (∃ o', s.readAt n k = .ok o') ↔ n ≤ k := by
  refine ⟨fun ⟨o', h⟩ => ?_, fun h => ⟨o, readAt_of_le ho h⟩⟩
  by_contra hlt
  rw [readAt_of_lt ho (Nat.lt_of_not_le hlt)] at h
  cases h

/-- After a command that answers, the outputs are readable exactly from the latency on: neither the command nor the result
sets the time (R80). -/
theorem exists_readAt_eq_ok_iff_of_exec {i : Instr} {s t : State} {n k : Nat} (h : exec i s = .next t) :
    (∃ o, t.readAt n k = .ok o) ↔ n ≤ k := by
  obtain ⟨x, -, rfl⟩ := exec_eq_next.mp h
  exact exists_readAt_eq_ok_iff (State.drive_outputs ..)

/-- Settles O9: after either command the outputs are readable exactly from the latency on. -/
theorem latencySameForAllCommands : Obligations.LatencySameForAllCommands := by
  intro i j s s' t t' h h' n k
  calc (∃ o, t.readAt n k = .ok o) ↔ n ≤ k := exists_readAt_eq_ok_iff_of_exec h
    _ ↔ ∃ o', t'.readAt n k = .ok o' := (exists_readAt_eq_ok_iff_of_exec h').symm

end Sys2Proof.Machine
end
